-- ==== Sys2Proof/Word.lean ====
section
/-! DEFINITION. The word types of the block (00_scope R6): the stream byte, the 16-bit length and
offset, and the 15-bit dispatch word of 30_encoding R81. -/

namespace Sys2Proof

/-- `BYTE_W` = 8: a stream byte, class, id, a checksum byte, an accumulator (00_scope R6). -/
abbrev Byte := BitVec 8

/-- `LEN_W` = 16: the length field and the fill offset (00_scope R6). -/
abbrev Half := BitVec 16

/-- The dispatch word `W` of 30_encoding R81: 15 bits. -/
abbrev DispatchWord := BitVec 15

end Sys2Proof
end

