-- ==== Sys2Proof/Config.lean ====
section
/-! DEFINITION. The constants of 00_scope R6, the one open parameter `QCAP`, and the free values: the
values the spec calls unspecified. -/

namespace Sys2Proof

/-- `SYNC_A`, the first sync byte (00_scope R6). -/
def syncA : Byte := 0xB5

/-- `SYNC_B`, the second sync byte (00_scope R6). -/
def syncB : Byte := 0x62

/-- `MAXLEN`, the largest payload length and the size of `PBUF` in bytes (00_scope R6, 10_state R31). -/
def maxLen : Nat := 65535

/-- `OVERHEAD`: the bytes of a frame that are not payload (00_scope R6). -/
def overhead : Nat := 8

/-- `QCAP`, the capacity of the queue in Frames: a positive natural number or `inf` (00_scope R6, D6). -/
inductive QCap where
  | inf
  | slots (n : Nat) (positive : 0 < n)
  deriving DecidableEq, Repr

/-- The parameters fixed when the block is built (70_reset_and_hazards R224). `QCAP` is the only one
(00_scope R6: "No other parameter exists"). DESIGN CHOICE, log 1: held in State, never written. -/
structure Config where
  qcap : QCap
  deriving DecidableEq, Repr

namespace Config

/-- The places that can hold an unspecified byte: a dead scratch register or PBUF byte (10_state R32, R46),
a head output with nothing to show (44_queue_host R147). -/
inductive ByteSite where
  | cls | mid | lenlo | ck1 | accA | accB
  | pbuf (offset : Nat)
  | headClass | headId
  | rdData (addr : Half)
  deriving DecidableEq, Repr

/-- The places that can hold an unspecified 16-bit value (10_state R32, R46; 44_queue_host R147). -/
inductive HalfSite where
  | len | off | headLen
  deriving DecidableEq, Repr

/-- An unspecified byte: nothing is known of it. The number is the state's draw counter. DEDUCED, log 4. Safe. -/
opaque freeByte : ByteSite → Nat → Byte

/-- An unspecified 16-bit value: nothing is known of it. DEDUCED, log 4. Safe. -/
opaque freeHalf : HalfSite → Nat → Half

/-- How a value between two numbers of a binary format is rounded; the five rules of IEEE 754. PRESUMED, log 16. -/
inductive Rounding where
  | nearestEven
  | nearestAway
  | towardZero
  | towardPositive
  | towardNegative
  deriving DecidableEq, Repr, Inhabited

/-- How the consumer's arithmetic rounds "raw x 1e-7" (48_payload_decoder R170): a parameter (93 U9), of which nothing
is known. Outside the block, log 16. -/
opaque degreesRounding : Rounding

/-- How many significand bits above the 24 of single precision the format has in which the consumer forms the product
"raw x 1e-7" before it is brought to single precision: a parameter (48_payload_decoder R170, 93 U9), of which nothing is
known; 0 when the product is formed in single precision. Outside the block, log 16. -/
opaque degreesExtraBits : Nat

end Config

end Sys2Proof
end

