-- ==== Sys2Proof/Syntax.lean ====
section
/-! DEFINITION. What the block can be asked to do: the events and queries of 00_scope R8, the requests of
the input script, and `Instr`, one constructor per row of spec/opcode_table.json (30_encoding R82). -/

namespace Sys2Proof

/-- The events `RST`, `IN b`, `TAKE` and the two pure queries (00_scope R8, 30_encoding R87: exactly these). -/
inductive Event where
  | rst
  | inp (b : Byte)
  | take
  | hasPending
  | peek
  deriving DecidableEq, Repr

/-- One entry of the input script: an event (30_encoding R87), or one of the dispatch words that no event of the block
forms and that the map has rows for all the same. -/
inductive Request where
  | event (e : Event)
  /-- An `IN` event of a gate-level block whose 4-bit tag register an upset has left at the reserved code 9 + `code`
  (30_encoding R88, D15). It is no event of the block. DESIGN CHOICE, log 5. -/
  | upsetIn (code : Fin 7) (b : Byte)
  /-- The event code 5 + `code`, which names no event (30_encoding R87); the machine refuses it by name. DESIGN CHOICE,
  log 6. Safe. -/
  | reserved (code : Fin 3)
  deriving DecidableEq, Repr

/-- The operations: the rows of 30_encoding R82 in the table's order. An operand `b` is the input byte.
`CLASS` and `ID` are `cls` and `msgId`. -/
inductive Instr where
  /-- SYNCA.HIT (R100): the byte is 0xB5. -/
  | syncaHit
  /-- SYNCA.MISS (R101). -/
  | syncaMiss (b : Byte)
  /-- SYNCB.HIT (R102): the byte is 0x62. -/
  | syncbHit
  /-- SYNCB.MISS (R103). -/
  | syncbMiss (b : Byte)
  /-- CLASS (R110). -/
  | cls (b : Byte)
  /-- ID (R111). -/
  | msgId (b : Byte)
  /-- LENLO (R112). -/
  | lenlo (b : Byte)
  /-- LENHI (R114). -/
  | lenhi (b : Byte)
  /-- PAYLOAD (R120). -/
  | payload (b : Byte)
  /-- CKA (R134). -/
  | cka (b : Byte)
  /-- CKB (R135). -/
  | ckb (b : Byte)
  /-- RSVD.TAG (R88): an input byte taken with the tag code 9 + `code`. -/
  | rsvdTag (code : Fin 7) (b : Byte)
  /-- TAKE (R148, R149). -/
  | take
  /-- RST (R220). -/
  | rst
  /-- HAS_PENDING (R146). -/
  | hasPending
  /-- PEEK (R147). -/
  | peek
  /-- RSVD.EV (R87): the event code 5 + `code`. -/
  | rsvdEv (code : Fin 3)
  deriving DecidableEq, Repr

end Sys2Proof
end

