-- ==== Sys2Proof/WellFormed.lean ====
section
/-! DEFINITION. Which terms of `Instr` stand for an operation of the map of 30_encoding R82. -/

namespace Sys2Proof

/-- A sync miss carries a byte other than the sync byte it missed (30_encoding R82 rows 2 and 4, "any other").
Every other operation takes any byte (R85), and reserved codes are in range by their type. -/
def Instr.wellFormed : Instr → Bool
  | .syncaHit => true
  | .syncaMiss b => b != syncA
  | .syncbHit => true
  | .syncbMiss b => b != syncB
  | .cls _ => true
  | .msgId _ => true
  | .lenlo _ => true
  | .lenhi _ => true
  | .payload _ => true
  | .cka _ => true
  | .ckb _ => true
  | .rsvdTag _ _ => true
  | .take => true
  | .rst => true
  | .hasPending => true
  | .peek => true
  | .rsvdEv _ => true

end Sys2Proof
end

