-- ==== Sys2Proof/Decode.lean ====
section
/-! DEFINITION. The dispatch word of 30_encoding R81, the operation map of R82 as a table in priority order,
the decoder that reads it, and the encoder. -/

namespace Sys2Proof

/-! ## The dispatch word (30_encoding R81) -/

/-- `W = {ev[2:0], tag[3:0], b[7:0]}` (30_encoding R81). -/
def mkWord (ev : BitVec 3) (tag : BitVec 4) (b : Byte) : DispatchWord :=
  (ev.setWidth 15 <<< 12) ||| (tag.setWidth 15 <<< 8) ||| b.setWidth 15

/-- Bits 14:12 of `W`. -/
def evField (w : DispatchWord) : BitVec 3 := w.extractLsb' 12 3

/-- Bits 11:8 of `W`. -/
def tagField (w : DispatchWord) : BitVec 4 := w.extractLsb' 8 4

/-- Bits 7:0 of `W`. -/
def byteField (w : DispatchWord) : Byte := w.extractLsb' 0 8

/-! ## The operation map (30_encoding R82) -/

/-- The seventeen operations of the map, without operands. -/
inductive Op where
  | syncaHit | syncaMiss | syncbHit | syncbMiss | cls | msgId | lenlo | lenhi | payload | cka | ckb | rsvdTag
  | take | rst | hasPending | peek | rsvdEv
  deriving DecidableEq, Repr

/-- One row of the map: a word `w` is of the row when `w &&& mask = pattern`. -/
structure OpRow where
  op : Op
  pattern : DispatchWord
  mask : DispatchWord
  deriving DecidableEq, Repr

/-- `(W & mask) = match` (30_encoding R82). -/
def OpRow.covers (r : OpRow) (w : DispatchWord) : Bool := w &&& r.mask == r.pattern

/-- Rows 1 to 12, format BYTE (30_encoding R82). -/
def byteRows : List OpRow :=
  [ ⟨.syncaHit, 0x00B5, 0x7FFF⟩,
    ⟨.syncaMiss, 0x0000, 0x7F00⟩,
    ⟨.syncbHit, 0x0162, 0x7FFF⟩,
    ⟨.syncbMiss, 0x0100, 0x7F00⟩,
    ⟨.cls, 0x0200, 0x7F00⟩,
    ⟨.msgId, 0x0300, 0x7F00⟩,
    ⟨.lenlo, 0x0400, 0x7F00⟩,
    ⟨.lenhi, 0x0500, 0x7F00⟩,
    ⟨.payload, 0x0600, 0x7F00⟩,
    ⟨.cka, 0x0700, 0x7F00⟩,
    ⟨.ckb, 0x0800, 0x7F00⟩,
    ⟨.rsvdTag, 0x0800, 0x7800⟩ ]

/-- Rows 13 to 17, format HOST (30_encoding R82). -/
def hostRows : List OpRow :=
  [ ⟨.take, 0x1000, 0x7000⟩,
    ⟨.rst, 0x2000, 0x7000⟩,
    ⟨.hasPending, 0x3000, 0x7000⟩,
    ⟨.peek, 0x4000, 0x7000⟩,
    ⟨.rsvdEv, 0x4000, 0x4000⟩ ]

/-- The whole map, in priority order. -/
def operationMap : List OpRow := byteRows ++ hostRows

/-- The operation an event word selects: "the first row whose `(W & mask) = match` holds" (30_encoding R82).
Every word has such a row (R87); `decodeOp_covers` in Laws/Decode.lean proves that the last arm is never taken. -/
def decodeOp (w : DispatchWord) : Op :=
  match operationMap.find? (fun r => r.covers w) with
  | some r => r.op
  | none => .rsvdEv

/-- An operation with its operands taken from the word: the byte, or how far a reserved code lies above the
first reserved one (tag 9, event 5). -/
def Op.build (w : DispatchWord) : Op → Instr
  | .syncaHit => .syncaHit
  | .syncaMiss => .syncaMiss (byteField w)
  | .syncbHit => .syncbHit
  | .syncbMiss => .syncbMiss (byteField w)
  | .cls => .cls (byteField w)
  | .msgId => .msgId (byteField w)
  | .lenlo => .lenlo (byteField w)
  | .lenhi => .lenhi (byteField w)
  | .payload => .payload (byteField w)
  | .cka => .cka (byteField w)
  | .ckb => .ckb (byteField w)
  | .rsvdTag => .rsvdTag (Fin.ofNat 7 ((tagField w).toNat - 9)) (byteField w)
  | .take => .take
  | .rst => .rst
  | .hasPending => .hasPending
  | .peek => .peek
  | .rsvdEv => .rsvdEv (Fin.ofNat 3 ((evField w).toNat - 5))

/-- The decoder: total over the 15-bit words (30_encoding R87). -/
def decodeWord (w : DispatchWord) : Instr := (decodeOp w).build w

/-- Why bytes are not a dispatch word. -/
inductive DecodeReject where
  /-- Fewer than two bytes are left. -/
  | truncated
  /-- Bit 15 is 1: the dispatch word has 15 bits (30_encoding R81). -/
  | bit15Set
  deriving DecidableEq, Repr

/-- The decoder on bytes. `W` is a naming device with no storage of its own (30_encoding R81); here it takes two
bytes, the low one first, bit 15 zero. DESIGN CHOICE, log 12. -/
def decode : List Byte → Except DecodeReject (Instr × List Byte)
  | lo :: hi :: rest =>
    if hi.getLsbD 7 then .error .bit15Set
    else .ok (decodeWord ((hi.setWidth 15 <<< 8) ||| lo.setWidth 15), rest)
  | _ => .error .truncated

/-- The instruction the decoder reads from an instruction whose bits are `w`, bit 0 the least significant. -/
def decodeTableWord (_nbits w : Nat) : Option Instr :=
  if 65536 ≤ w then none
  else
    match decode [BitVec.ofNat 8 w, BitVec.ofNat 8 (w / 256)] with
    | .ok (i, _) => some i
    | .error _ => none

/-! ## The encoder -/

/-- The word of an operation, from the columns ev, tag and b of 30_encoding R82. A field the row does not
care about is 0 (DESIGN CHOICE, log 13). -/
def encodeWord : Instr → DispatchWord
  | .syncaHit => mkWord 0 0 syncA
  | .syncaMiss b => mkWord 0 0 b
  | .syncbHit => mkWord 0 1 syncB
  | .syncbMiss b => mkWord 0 1 b
  | .cls b => mkWord 0 2 b
  | .msgId b => mkWord 0 3 b
  | .lenlo b => mkWord 0 4 b
  | .lenhi b => mkWord 0 5 b
  | .payload b => mkWord 0 6 b
  | .cka b => mkWord 0 7 b
  | .ckb b => mkWord 0 8 b
  | .rsvdTag code b => mkWord 0 (BitVec.ofNat 4 (9 + code.val)) b
  | .take => mkWord 1 0 0
  | .rst => mkWord 2 0 0
  | .hasPending => mkWord 3 0 0
  | .peek => mkWord 4 0 0
  | .rsvdEv code => mkWord (BitVec.ofNat 3 (5 + code.val)) 0 0

/-- The two bytes of an operation, low byte first (DESIGN CHOICE, log 12). -/
def encode (i : Instr) : List Byte :=
  [(encodeWord i).setWidth 8, ((encodeWord i) >>> 8).setWidth 8]

end Sys2Proof
end

