-- ==== Sys2Proof/Machine/State.lean ====
section
/-! DEFINITION. The state of the block (10_state R20) and the model's own fields beside it, the reasons a step
can stop, and the state right after reset (10_state R46). -/

namespace Sys2Proof.Machine

/-- The nine values of the state tag, in the spec's order (10_state R22). There is no value for the codes 9 to 15, so a
state with such a tag cannot be written down (30_encoding R88). -/
inductive Tag where
  | awaitSyncA
  | awaitSyncB
  | awaitClass
  | awaitId
  | awaitLenLo
  | awaitLenHi
  | awaitPayload
  | awaitChecksumA
  | awaitChecksumB
  deriving DecidableEq, Repr

/-- A memory: the cells written so far, at strictly rising addresses. An address that is not listed holds no known
value (log 3). -/
abbrev Memory := List Host.Cell

/-- A Frame: class, id and payload of a validated message (10_state R40). -/
structure Frame where
  cls : Byte
  id : Byte
  payload : List Byte
  deriving DecidableEq, Repr

/-- What PEEK shows of the head Frame: class, id, length, payload (44_queue_host R147). -/
structure HeadView where
  cls : Byte
  id : Byte
  len : Half
  payload : List Byte
  deriving DecidableEq, Repr

/-- What one event or query answers to the outside (00_scope R9, 30_encoding R91). -/
inductive Output where
  /-- An `IN` event was accepted; the flag is `ck_err` (43_checksum R136). -/
  | accepted (ckErr : Bool)
  /-- The result of a TAKE (44_queue_host R148, R149). -/
  | taken (result : Option Frame)
  /-- An RST was performed. -/
  | wasReset
  /-- The result of HAS_PENDING (44_queue_host R146). -/
  | pending (result : Bool)
  /-- The result of PEEK (44_queue_host R147). -/
  | peeked (result : Option HeadView)
  deriving DecidableEq, Repr

/-- The conditions the block can raise (60_exceptions R190, codes 1 to 4). Code 5 cannot occur and has no
constructor (R196); code 6 is the consumer's (R195). -/
inductive Condition where
  | syncLoss
  | checksumMismatch
  | emptyDequeue
  | queueFullHold
  deriving DecidableEq, Repr

/-- The whole state. -/
structure State where
  /-- The build parameters; the model's own field, never written (log 1). -/
  cfg : Config
  /-- `TAG` (10_state R22). -/
  tag : Tag
  /-- `CLS` (10_state R24). -/
  cls : Byte
  /-- `MID` (10_state R25). -/
  mid : Byte
  /-- `LENLO` (10_state R26). -/
  lenlo : Byte
  /-- `LEN` (10_state R27). -/
  len : Half
  /-- `OFF` (10_state R28). -/
  off : Half
  /-- `CK1` (10_state R29). -/
  ck1 : Byte
  /-- `ACC_A` (10_state R30). -/
  accA : Byte
  /-- `ACC_B` (10_state R30). -/
  accB : Byte
  /-- `PBUF` (10_state R31). -/
  pbuf : Memory
  /-- `Q`, oldest Frame first (10_state R41). -/
  q : List Frame
  /-- The draw counter of the free values; the model's own field (log 4). -/
  draw : Nat
  /-- The requests yet to come; the model's own field (log 7). -/
  script : List Request
  /-- The answers given so far, in order; the model's own field (log 9). -/
  outs : List Output
  deriving DecidableEq, Repr

/-- The reasons for a fault. -/
inductive Fault where
  /-- Raised by PAYLOAD when `OFF` is 65535: PBUF has offsets 0 to 65534 only (10_state R31, log 11). No state with
  `OFF < LEN` raises it. Safe. -/
  | pbufOffsetAbsent
  deriving DecidableEq, Repr

/-- The reasons for a refusal. -/
inductive Refusal where
  /-- Raised by `exec` for an operation without a meaning; no arm raises it now. Safe. -/
  | notModelled (mnemonic : String)
  /-- Raised by RSVD.EV: event codes 5 to 7, "no such event exists" (30_encoding R87, log 6). Safe. -/
  | reservedEvent
  deriving DecidableEq, Repr

/-- The machine right after reset (10_state R46): `TAG = AwaitSyncA`, `Q` empty. The scratch registers, which the
spec leaves unspecified, are 0 (DESIGN CHOICE, log 2), PBUF lists nothing (log 3), QCAP is `inf` (log 1), and no
request is placed (log 7). -/
def State.reset : State where
  cfg := ⟨.inf⟩
  tag := .awaitSyncA
  cls := 0
  mid := 0
  lenlo := 0
  len := 0
  off := 0
  ck1 := 0
  accA := 0
  accB := 0
  pbuf := []
  q := []
  draw := 0
  script := []
  outs := []

end Sys2Proof.Machine
end

