-- ==== Sys2Proof/Machine/Ops.lean ====
section
/-! DEFINITION. The named operations over PBUF, the registers and the queue: reading and writing PBUF, the
checksum function and its incremental form, the death of scratch, the queue's two ends, raising a condition, and
ending an event. -/

namespace Sys2Proof.Machine

/-! ## PBUF (10_state R31) -/

/-- The byte listed at an offset, if one is. -/
def Memory.read : Memory → Nat → Option Byte
  | [], _ => none
  | (k, v) :: rest, a => if a = k then some v else Memory.read rest a

/-- The memory with one byte written, offsets kept rising. -/
def Memory.write : Memory → Nat → Byte → Memory
  | [], a, b => [(a, b)]
  | (k, v) :: rest, a, b =>
    if a < k then (a, b) :: (k, v) :: rest
    else if a = k then (a, b) :: rest
    else (k, v) :: Memory.write rest a b

/-- Every listed offset is at least `lo`, each above the one before it, and exists in PBUF. -/
def Memory.risingFrom : Nat → Memory → Bool
  | _, [] => true
  | lo, (k, _) :: rest => decide (lo ≤ k) && decide (k < maxLen) && Memory.risingFrom (k + 1) rest

/-- The canonical form: offsets strictly rising, all of them offsets of PBUF (0 to 65534, 10_state R31). -/
def Memory.wf (m : Memory) : Bool := Memory.risingFrom 0 m

/-- `PBUF[i]`: the byte listed there, and a free value where nothing is (10_state R32, 93 U5: any value; log 3). -/
def State.pbufByte (s : State) (i : Nat) : Byte :=
  (s.pbuf.read i).getD (Config.freeByte (.pbuf i) s.draw)

/-- `PBUF[i] <- b` for an offset that exists; `none` for the offset 65535, which does not (10_state R31, log 11). -/
def State.storePbuf (s : State) (i : Nat) (b : Byte) : Option State :=
  if i < maxLen then some { s with pbuf := s.pbuf.write i b } else none

/-! ## The checksum (43_checksum R130, R131) -/

/-- One round of R130: `a = (a + x) mod 256; b = (b + a) mod 256`, with the `a` just updated. -/
def ckStep (p : Byte × Byte) (x : Byte) : Byte × Byte := (p.1 + x, p.2 + (p.1 + x))

/-- The checksum function `ck` (43_checksum R130). -/
def ck (bytes : List Byte) : Byte × Byte := bytes.foldl ckStep (0, 0)

/-- `acc(x)` (43_checksum R131). -/
def State.accumulate (s : State) (x : Byte) : State :=
  { s with accA := (ckStep (s.accA, s.accB) x).1, accB := (ckStep (s.accA, s.accB) x).2 }

/-- `ACC_A <- 0; ACC_B <- 0` (40_sync R102). -/
def State.clearSums (s : State) : State := { s with accA := 0, accB := 0 }

/-! ## The tag and the live ranges -/

/-- `TAG <- t`. -/
def State.setTag (s : State) (t : Tag) : State := { s with tag := t }

/-- The end of the live range of every scratch register and of PBUF: "scratch is discarded", each value is
unspecified from here on (10_state R32; at CKB 43_checksum R135 corner case 6, at RST 70_reset_and_hazards R220).
DEDUCED, log 4: each register takes a free value, PBUF lists nothing. -/
def State.discardScratch (s : State) : State :=
  { s with
    cls := Config.freeByte .cls s.draw
    mid := Config.freeByte .mid s.draw
    lenlo := Config.freeByte .lenlo s.draw
    len := Config.freeHalf .len s.draw
    off := Config.freeHalf .off s.draw
    ck1 := Config.freeByte .ck1 s.draw
    accA := Config.freeByte .accA s.draw
    accB := Config.freeByte .accB s.draw
    pbuf := []
    draw := s.draw + 1 }

/-- The end of the live range of `LENLO`, at LENHI (10_state R32, table). DEDUCED, log 4. -/
def State.discardLenlo (s : State) : State :=
  { s with lenlo := Config.freeByte .lenlo s.draw, draw := s.draw + 1 }

/-! ## The queue (10_state R41) -/

/-- `Q.push(f)`: `f` becomes the newest. -/
def State.push (s : State) (f : Frame) : State := { s with q := s.q ++ [f] }

/-- `Q.pop()`: removes the oldest; the others keep their order. -/
def State.pop (s : State) : State := { s with q := s.q.tail }

/-! ## Conditions (60_exceptions R190, R200) -/

/-- The label of a condition (60_exceptions R190, D25). -/
def Condition.code : Condition → Nat
  | .syncLoss => 1
  | .checksumMismatch => 2
  | .emptyDequeue => 3
  | .queueFullHold => 4

/-- What raising a condition does to the state: the table of 60_exceptions R200. Nothing is saved, no handler is
entered, and there is no return operation (R201). -/
def State.raise (s : State) : Condition → State
  | .syncLoss => s.setTag .awaitSyncA
  | .checksumMismatch => s.discardScratch.setTag .awaitSyncA
  | .emptyDequeue => s
  | .queueFullHold => s

/-! ## The end of an event -/

/-- The request that stands first in the script has been performed and has answered `o` (00_scope R8, R9;
log 7, 9). -/
def State.retire (s : State) (o : Output) : State :=
  { s with script := s.script.tail, outs := s.outs ++ [o] }

/-- The end of an accepted `IN` event, with its `ck_err` (43_checksum R136). -/
def State.accept (s : State) (ckErr : Bool) : State := s.retire (.accepted ckErr)

end Sys2Proof.Machine
end

