-- ==== Sys2Proof/Machine/Operands.lean ====
section
/-! DEFINITION. The operand forms: the assembly of the length, the bytes a checksum covers, the wire format, the
candidate's payload, the view of the head Frame, the codes of the tag and of the events, and which request of the
script acts next. -/

namespace Sys2Proof.Machine

/-! ## The length and the wire format (30_encoding R75 to R79) -/

/-- `{hi, lo}` = `zext_16(lo) | (zext_16(hi) << 8)` (30_encoding R79). -/
def assembleLength (hi lo : Byte) : Half := lo.setWidth 16 ||| (hi.setWidth 16 <<< 8)

/-- `n[7:0]`. -/
def lowByte (n : Half) : Byte := n.setWidth 8

/-- `n[15:8]`. -/
def highByte (n : Half) : Byte := (n >>> 8).setWidth 8

/-- The bytes the checksum of a message covers: class, id, length low, length high, payload (30_encoding R77). -/
def covered (c i : Byte) (n : Half) (p : List Byte) : List Byte := c :: i :: lowByte n :: highByte n :: p

/-- `|p|` as the 16-bit length field. -/
def lengthField (p : List Byte) : Half := BitVec.ofNat 16 p.length

/-- The bytes of a candidate with header and payload as given and the two checksum bytes `a`, `b`, whatever they
are (30_encoding R75, field by field). -/
def frameBytes (c i : Byte) (p : List Byte) (a b : Byte) : List Byte :=
  syncA :: syncB :: (covered c i (lengthField p) p ++ [a, b])

/-- `wire(c, i, p)`, the bytes of a well-formed frame, for `|p| <= 65535` (30_encoding R75). -/
def wire (c i : Byte) (p : List Byte) : List Byte :=
  let s := covered c i (lengthField p) p
  frameBytes c i p (ck s).1 (ck s).2

/-! ## The candidate and the head Frame -/

/-- `PBUF[0..n-1]` (00_scope R11). -/
def State.pbufBytes (s : State) (n : Nat) : List Byte := (List.range n).map s.pbufByte

/-- `Frame{class = CLS, id = MID, payload = PBUF[0..LEN-1]}` (43_checksum R135). -/
def State.candidate (s : State) : Frame := ⟨s.cls, s.mid, s.pbufBytes s.len.toNat⟩

/-- The view of a Frame that PEEK gives (44_queue_host R147). -/
def Frame.view (f : Frame) : HeadView := ⟨f.cls, f.id, lengthField f.payload, f.payload⟩

/-! ## Codes (10_state R22, 30_encoding R81) -/

/-- The 4-bit code of a tag (10_state R22). -/
def Tag.code : Tag → BitVec 4
  | .awaitSyncA => 0
  | .awaitSyncB => 1
  | .awaitClass => 2
  | .awaitId => 3
  | .awaitLenLo => 4
  | .awaitLenHi => 5
  | .awaitPayload => 6
  | .awaitChecksumA => 7
  | .awaitChecksumB => 8

/-- The tag with a given 4-bit code; the codes 9 to 15 name no tag (30_encoding R88). -/
def Tag.ofCode (w : BitVec 4) : Option Tag :=
  match w.toNat with
  | 0 => some .awaitSyncA
  | 1 => some .awaitSyncB
  | 2 => some .awaitClass
  | 3 => some .awaitId
  | 4 => some .awaitLenLo
  | 5 => some .awaitLenHi
  | 6 => some .awaitPayload
  | 7 => some .awaitChecksumA
  | 8 => some .awaitChecksumB
  | _ => none

/-- The 3-bit event code of a request (30_encoding R81). -/
def eventCode : Request → BitVec 3
  | .event (.inp _) => 0
  | .event .take => 1
  | .event .rst => 2
  | .event .hasPending => 3
  | .event .peek => 4
  | .upsetIn _ _ => 0
  | .reserved code => BitVec.ofNat 3 (5 + code.val)

/-- The input byte of a request; don't-care, here 0, unless it is an `IN` (30_encoding R81). -/
def inputByte : Request → Byte
  | .event (.inp b) => b
  | .event .take => 0
  | .event .rst => 0
  | .event .hasPending => 0
  | .event .peek => 0
  | .upsetIn _ b => b
  | .reserved _ => 0

/-- The tag code the dispatch reads: the code of `TAG`, except that an upset puts its own there (30_encoding R88;
log 5). -/
def tagCode : Request → Tag → BitVec 4
  | .event _, t => t.code
  | .upsetIn code _, _ => BitVec.ofNat 4 (9 + code.val)
  | .reserved _, t => t.code

/-- The request a dispatch word stands for: the inverse of `eventCode`, `inputByte` and, for an upset, `tagCode`. -/
def requestOfWord (w : DispatchWord) : Request :=
  match (evField w).toNat with
  | 0 =>
    match Tag.ofCode (tagField w) with
    | some _ => .event (.inp (byteField w))
    | none => .upsetIn (Fin.ofNat 7 ((tagField w).toNat - 9)) (byteField w)
  | 1 => .event .take
  | 2 => .event .rst
  | 3 => .event .hasPending
  | 4 => .event .peek
  | n => .reserved (Fin.ofNat 3 (n - 5))

/-- The dispatch word of a request in a state with the given tag (30_encoding R81). -/
def dispatchWord (r : Request) (t : Tag) : DispatchWord := mkWord (eventCode r) (tagCode r t) (inputByte r)

/-! ## Which request acts next (00_scope R8, 44_queue_host R145) -/

/-- The first request that is no `IN`, and the others in their order. -/
def nextHostRequest : List Request → Option (Request × List Request)
  | [] => none
  | .event (.inp b) :: rest => (nextHostRequest rest).map fun p => (p.1, .event (.inp b) :: p.2)
  | r :: rest => some (r, rest)

end Sys2Proof.Machine
end

