-- ==== Sys2Proof/Machine/Flags.lean ====
section
/-! DEFINITION. The block's one-bit values, none of them stored (10_state R33): `pending`, `in_ready`, `ck_err`,
the match of the checksum; and the request that acts next, which depends on `in_ready`. -/

namespace Sys2Proof.Machine

/-- `|Q| >= QCAP`; never so with `QCAP = inf` (44_queue_host R145). -/
def capReached : QCap → Nat → Bool
  | .inf, _ => false
  | .slots n _, k => decide (n ≤ k)

/-- `pending = (|Q| > 0)` (10_state R33 (a)). -/
def State.pending (s : State) : Bool := !s.q.isEmpty

/-- The block is on hold: `TAG = AwaitChecksumB and |Q| >= QCAP` (44_queue_host R145, 60_exceptions R194). -/
def State.held (s : State) : Bool :=
  decide (s.tag = .awaitChecksumB) && capReached s.cfg.qcap s.q.length

/-- `in_ready` (10_state R33 (b)). -/
def State.inReady (s : State) : Bool := !s.held

/-- `CK1 = ACC_A and b = ACC_B` (43_checksum R135). -/
def State.checksumMatches (s : State) (b : Byte) : Bool := s.ck1 == s.accA && b == s.accB

/-- `ck_err` of one answer: 1 exactly for a failing CKB (10_state R33 (c), 43_checksum R136). -/
def Output.ckErr : Output → Bool
  | .accepted e => e
  | .taken _ => false
  | .wasReset => false
  | .pending _ => false
  | .peeked _ => false

/-- `ck_err` after the latest event; 0 when there was none (10_state R46). -/
def State.ckErr (s : State) : Bool :=
  match s.outs.getLast? with
  | some o => o.ckErr
  | none => false

/-- The state with the request that acts next standing first in its script. During a hold no `IN` event happens
until a TAKE or RST (44_queue_host R145), so the held bytes stay offered and the first request of the consumer or
of reset goes before them (00_scope R13: a held run is stuck only with "no later TAKE or RST"). DEDUCED, log 8. -/
def State.present (s : State) : State :=
  if s.held then
    match nextHostRequest s.script with
    | some (r, rest) => { s with script := r :: rest }
    | none => s
  else s

end Sys2Proof.Machine
end

