-- ==== Sys2Proof/Machine/Checksum.lean ====
section
/-! DEFINITION. CKA and CKB (43_checksum). -/

namespace Sys2Proof.Machine

/-- CKA (43_checksum R134): the byte is only stored. -/
def execCka (b : Byte) (s : State) : Host.Outcome State Fault Refusal :=
  .next ((({ s with ck1 := b } : State).setTag .awaitChecksumB).accept false)

/-- CKB (43_checksum R135). On hold nothing happens and the byte stays offered (44_queue_host R145). Otherwise a
match publishes the candidate and a mismatch raises ChecksumMismatch with `ck_err` (R136); in both cases the
candidate's scratch is dead (R135 corner case 6) and `TAG` is AwaitSyncA. -/
def execCkb (b : Byte) (s : State) : Host.Outcome State Fault Refusal :=
  if s.held then .next (s.raise .queueFullHold)
  else if s.checksumMatches b then
    .next ((((s.push s.candidate).discardScratch).setTag .awaitSyncA).accept false)
  else .next ((s.raise .checksumMismatch).accept true)

end Sys2Proof.Machine
end

