-- ==== Sys2Proof/Machine/Header.lean ====
section
/-! DEFINITION. CLASS, ID, LENLO, LENHI (41_header). -/

namespace Sys2Proof.Machine

/-- CLASS (41_header R110). -/
def execCls (b : Byte) (s : State) : Host.Outcome State Fault Refusal :=
  .next (((({ s with cls := b } : State).accumulate b).setTag .awaitId).accept false)

/-- ID (41_header R111). -/
def execMsgId (b : Byte) (s : State) : Host.Outcome State Fault Refusal :=
  .next (((({ s with mid := b } : State).accumulate b).setTag .awaitLenLo).accept false)

/-- LENLO (41_header R112). -/
def execLenlo (b : Byte) (s : State) : Host.Outcome State Fault Refusal :=
  .next (((({ s with lenlo := b } : State).accumulate b).setTag .awaitLenHi).accept false)

/-- LENHI (41_header R114). `LENLO` is read for the last time here and is dead afterwards (10_state R32, log 4). -/
def execLenhi (b : Byte) (s : State) : Host.Outcome State Fault Refusal :=
  let n := assembleLength b s.lenlo
  let t := ({ s with len := n, off := 0 } : State).accumulate b
  .next ((t.discardLenlo.setTag (if n = 0 then .awaitChecksumA else .awaitPayload)).accept false)

end Sys2Proof.Machine
end

