-- ==== Sys2Proof/Machine/Payload.lean ====
section
/-! DEFINITION. PAYLOAD (42_payload). -/

namespace Sys2Proof.Machine

/-- PAYLOAD (42_payload R120). The byte is not examined (R122). The store faults for `OFF` = 65535, which no
reachable state has (10_state R23, log 11). -/
def execPayload (b : Byte) (s : State) : Host.Outcome State Fault Refusal :=
  match s.storePbuf s.off.toNat b with
  | none => .fault .pbufOffsetAbsent
  | some t =>
    let u := ({ t with off := s.off + 1 } : State).accumulate b
    .next ((u.setTag (if s.off + 1 = s.len then .awaitChecksumA else .awaitPayload)).accept false)

end Sys2Proof.Machine
end

