-- ==== Sys2Proof/Machine/Queue.lean ====
section
/-! DEFINITION. TAKE, HAS_PENDING, PEEK (44_queue_host). -/

namespace Sys2Proof.Machine

/-- TAKE: with a Frame in the queue it removes and returns the oldest (44_queue_host R148); with an empty queue it
raises EmptyDequeue, returns `none` and changes nothing (R149). -/
def execTake (s : State) : Host.Outcome State Fault Refusal :=
  match s.q with
  | [] => .next ((s.raise .emptyDequeue).retire (.taken none))
  | f :: _ => .next (s.pop.retire (.taken (some f)))

/-- HAS_PENDING (44_queue_host R146). -/
def execHasPending (s : State) : Host.Outcome State Fault Refusal :=
  .next (s.retire (.pending s.pending))

/-- PEEK (44_queue_host R147). -/
def execPeek (s : State) : Host.Outcome State Fault Refusal :=
  .next (s.retire (.peeked (s.q.head?.map Frame.view)))

end Sys2Proof.Machine
end

