-- ==== Sys2Proof/Machine/Reserved.lean ====
section
/-! DEFINITION. The two reserved rows of the map, RSVD.TAG and RSVD.EV (30_encoding R87, R88). -/

namespace Sys2Proof.Machine

/-- RSVD.TAG (30_encoding R88, D15): in a gate-level block an `IN` in a reserved tag sets `TAG <- AwaitSyncA` and
changes nothing else. No event of the block selects this row; only `Request.upsetIn` does. DESIGN CHOICE, log 5. -/
def execRsvdTag (_code : Fin 7) (_b : Byte) (s : State) : Host.Outcome State Fault Refusal :=
  .next ((s.setTag .awaitSyncA).accept false)

/-- RSVD.EV (30_encoding R87): "no such event exists", so there is no effect to give (log 6). -/
def execRsvdEv (_code : Fin 3) (_s : State) : Host.Outcome State Fault Refusal :=
  .refused .reservedEvent

end Sys2Proof.Machine
end

