-- ==== Sys2Proof/Machine/Reset.lean ====
section
/-! DEFINITION. RST (70_reset_and_hazards). -/

namespace Sys2Proof.Machine

/-- RST (70_reset_and_hazards R220): the tag to AwaitSyncA, the queue emptied, the scratch registers and PBUF
unspecified afterwards (log 4). A byte still offered stays offered (R145: the producer keeps it). -/
def execRst (s : State) : Host.Outcome State Fault Refusal :=
  .next ((({ s.discardScratch with q := [] } : State).setTag .awaitSyncA).retire .wasReset)

end Sys2Proof.Machine
end

