-- ==== Sys2Proof/Machine/Sync.lean ====
section
/-! DEFINITION. SYNCA and SYNCB (40_sync). The guard of each rule's pseudocode (`TAG` and the byte) is the
dispatch that selects the operation (30_encoding R82, log 10). -/

namespace Sys2Proof.Machine

/-- SYNCA.HIT (40_sync R100). -/
def execSyncaHit (s : State) : Host.Outcome State Fault Refusal :=
  .next ((s.setTag .awaitSyncB).accept false)

/-- SYNCA.MISS (40_sync R101): SyncLoss without an effect, the tag stays AwaitSyncA. -/
def execSyncaMiss (_b : Byte) (s : State) : Host.Outcome State Fault Refusal :=
  .next ((s.raise .syncLoss).accept false)

/-- SYNCB.HIT (40_sync R102): a candidate begins, both sums at 0. -/
def execSyncbHit (s : State) : Host.Outcome State Fault Refusal :=
  .next ((s.clearSums.setTag .awaitClass).accept false)

/-- SYNCB.MISS (40_sync R103): SyncLoss, straight back to AwaitSyncA (R104); the byte is consumed (R105). -/
def execSyncbMiss (_b : Byte) (s : State) : Host.Outcome State Fault Refusal :=
  .next ((s.raise .syncLoss).accept false)

end Sys2Proof.Machine
end

