-- ==== Sys2Proof/Machine/Dispatch.lean ====
section
/-! DEFINITION. One arm per operation of the map (30_encoding R82). -/

namespace Sys2Proof.Machine

/-- The meaning of an operation. -/
def exec (i : Instr) (s : State) : Host.Outcome State Fault Refusal :=
  match i with
  | .syncaHit => Sys2Proof.Machine.execSyncaHit s
  | .syncaMiss b => Sys2Proof.Machine.execSyncaMiss b s
  | .syncbHit => Sys2Proof.Machine.execSyncbHit s
  | .syncbMiss b => Sys2Proof.Machine.execSyncbMiss b s
  | .cls b => Sys2Proof.Machine.execCls b s
  | .msgId b => Sys2Proof.Machine.execMsgId b s
  | .lenlo b => Sys2Proof.Machine.execLenlo b s
  | .lenhi b => Sys2Proof.Machine.execLenhi b s
  | .payload b => Sys2Proof.Machine.execPayload b s
  | .cka b => Sys2Proof.Machine.execCka b s
  | .ckb b => Sys2Proof.Machine.execCkb b s
  | .rsvdTag code b => Sys2Proof.Machine.execRsvdTag code b s
  | .take => Sys2Proof.Machine.execTake s
  | .rst => Sys2Proof.Machine.execRst s
  | .hasPending => Sys2Proof.Machine.execHasPending s
  | .peek => Sys2Proof.Machine.execPeek s
  | .rsvdEv code => Sys2Proof.Machine.execRsvdEv code s

end Sys2Proof.Machine
end

