-- ==== Sys2Proof/Machine/Step.lean ====
section
/-! DEFINITION. One step: the request that acts next is decoded with the tag and performed. -/

namespace Sys2Proof.Machine

/-- One event (00_scope R8). With no request offered nothing happens (44_queue_host R150, D14). A run whose only
requests are bytes on hold stays as it is: stuck, not final, not faulted (60_exceptions R194). -/
def step (s : State) : Host.Outcome State Fault Refusal :=
  match s.present.script with
  | [] => .next s
  | r :: _ => exec (decodeWord (dispatchWord r s.tag)) s.present

/-- The state in which the very next step performs the operation of the dispatch word `w`: its request stands
first in the script and, for an `IN` whose tag code names a tag, `TAG` is that tag. Log 5, 7. -/
def State.withFetchWord (s : State) (_nbits w : Nat) : State :=
  let word : DispatchWord := BitVec.ofNat 15 w
  { s with
    tag := if evField word = 0 then (Tag.ofCode (tagField word)).getD s.tag else s.tag
    script := requestOfWord word :: s.script }

end Sys2Proof.Machine
end

