-- ==== Sys2Proof/Machine/PayloadDecoder.lean ====
section
/-! DEFINITION. The PayloadDecoder, which is NOT part of the block (00_scope R5, D20): the pure function a consumer
applies to a Frame it has taken (48_payload_decoder R165 to R170). No step uses it; log 16. -/

namespace Sys2Proof.Machine

/-! ## Reading the payload (48_payload_decoder R167) -/

/-- The payload length the decoder accepts (48_payload_decoder R166). -/
def navLength : Nat := 92

/-- The byte at an offset of a payload; only offsets below the payload's length are asked for. -/
def u8At (p : List Byte) (i : Nat) : Byte := p.getD i 0

/-- A little-endian u16. -/
def u16At (p : List Byte) (i : Nat) : Half := assembleLength (u8At p (i + 1)) (u8At p i)

/-- A little-endian u32. -/
def u32At (p : List Byte) (i : Nat) : BitVec 32 :=
  (u16At p i).setWidth 32 ||| ((u16At p (i + 2)).setWidth 32 <<< 16)

/-- A little-endian i32, two's complement (93 G1). PRESUMED, log 16. -/
def i32At (p : List Byte) (i : Nat) : Int := (u32At p i).toInt

/-! ## The fix type (48_payload_decoder R169) -/

/-- The fix type; a value outside 0 to 5 is kept. -/
inductive FixType where
  | noFix | deadReckoning | fix2D | fix3D | gnssDeadReckoning | timeOnly
  | other (raw : Byte)
  deriving DecidableEq, Repr

/-- The enumeration of 48_payload_decoder R169. -/
def fixTypeOf (b : Byte) : FixType :=
  match b.toNat with
  | 0 => .noFix
  | 1 => .deadReckoning
  | 2 => .fix2D
  | 3 => .fix3D
  | 4 => .gnssDeadReckoning
  | 5 => .timeOnly
  | _ => .other b

/-! ## The timestamp (48_payload_decoder R168) -/

/-- The date and time fields as they are read (48_payload_decoder R167). -/
structure UtcFields where
  year : Half
  month : Byte
  day : Byte
  hour : Byte
  minute : Byte
  second : Byte
  nanosecond : Int
  deriving DecidableEq, Repr

/-- A UTC timestamp: date, time of day, the sub-second component, and the offset from UTC. The sub-second component is
`milliseconds + nanosecondRest / 10^6` milliseconds, exactly. -/
structure UtcTimestamp where
  year : Nat
  month : Nat
  day : Nat
  hour : Nat
  minute : Nat
  second : Nat
  milliseconds : Nat
  nanosecondRest : Nat
  utcOffsetMinutes : Int
  deriving DecidableEq, Repr

/-- Why no timestamp is formed: the two cases D0 leaves open, which a model of the consumer refuses (93 U14). -/
inductive TimestampRefusal where
  | negativeNanosecond
  | impossibleDate
  deriving DecidableEq, Repr

/-- The timestamp of a record, or why there is none. -/
inductive Timestamp where
  | formed (t : UtcTimestamp)
  | refused (why : TimestampRefusal)
  deriving DecidableEq, Repr

/-- A leap year of the Gregorian calendar (PRESUMED, log 16), whose rule is used for every year a u16 holds: the years
before 1582 count by it too, and year 0 is a leap year (DESIGN CHOICE, log 22). -/
def isLeapYear (year : Nat) : Bool := year % 4 == 0 && (year % 100 != 0 || year % 400 == 0)

/-- The days of a month of the Gregorian calendar; 0 for a month that is none. PRESUMED, log 16. -/
def daysInMonth (year month : Nat) : Nat :=
  match month with
  | 1 => 31
  | 2 => if isLeapYear year then 29 else 28
  | 3 => 31
  | 4 => 30
  | 5 => 31
  | 6 => 30
  | 7 => 31
  | 8 => 31
  | 9 => 30
  | 10 => 31
  | 11 => 30
  | 12 => 31
  | _ => 0

/-- The date is a date of the calendar (93 U14, which does not say what an impossible date is). No year is impossible by
itself, year 0 included (DESIGN CHOICE, log 22). -/
def UtcFields.dateExists (u : UtcFields) : Bool :=
  1 ≤ u.day.toNat && u.day.toNat ≤ daysInMonth u.year.toNat u.month.toNat

/-- The fields "combined into a UTC timestamp with sub-second component = nanosecond/1e6 milliseconds, zero UTC offset"
(48_payload_decoder R168). The quotient is kept exact, as a whole number and a rest (DEDUCED, log 16); a time of day is
taken as it is read (R166: "all other malformed data is decoded as-is"). -/
def timestampOf (u : UtcFields) : Timestamp :=
  if u.nanosecond < 0 then .refused .negativeNanosecond
  else if u.dateExists then
    .formed
      { year := u.year.toNat, month := u.month.toNat, day := u.day.toNat
        hour := u.hour.toNat, minute := u.minute.toNat, second := u.second.toNat
        milliseconds := u.nanosecond.toNat / 1000000, nanosecondRest := u.nanosecond.toNat % 1000000
        utcOffsetMinutes := 0 }
  else .refused .impossibleDate

/-! ## Degrees (48_payload_decoder R170)

`raw x 1e-7` as a single-precision number. The product is formed in a binary format of 24 significand bits (single
precision itself) or more and then brought to single precision; which format, and how a value between two numbers of a
format is rounded, is the parameter of 93 U9. -/

/-- A magnitude `significand * 2 ^ exponent`. -/
structure Scaled where
  significand : Nat
  exponent : Int
  deriving DecidableEq, Repr

/-- The numerator of `n / d / 2 ^ e` as a fraction of naturals. -/
def scaledNum (n : Nat) (e : Int) : Nat := n * 2 ^ (-e).toNat

/-- Its denominator. -/
def scaledDen (d : Nat) (e : Int) : Nat := d * 2 ^ e.toNat

/-- The exponent `e` at which `n / d / 2 ^ e` lies in `[2 ^ (p - 1), 2 ^ p)`, for `n`, `d` above 0. -/
def exponentFor (p n d : Nat) : Int :=
  let e : Int := Nat.log2 n - Nat.log2 d - p
  if 2 ^ p * scaledDen d e ≤ scaledNum n e then e + 1 else e

/-- Whether the magnitude `n / d` of a number that is negative when `neg` holds is rounded away from zero. -/
def roundsAway (r : Config.Rounding) (neg : Bool) (n d : Nat) : Bool :=
  match r with
  | .nearestEven => d < 2 * (n % d) || (2 * (n % d) == d && n / d % 2 == 1)
  | .nearestAway => d ≤ 2 * (n % d)
  | .towardZero => false
  | .towardPositive => n % d != 0 && !neg
  | .towardNegative => n % d != 0 && neg

/-- That magnitude rounded to a whole number. -/
def roundQuotient (r : Config.Rounding) (neg : Bool) (n d : Nat) : Nat :=
  if roundsAway r neg n d then n / d + 1 else n / d

/-- The magnitude `n / d` rounded to `p` significand bits. -/
def roundTo (r : Config.Rounding) (p : Nat) (neg : Bool) (n d : Nat) : Scaled :=
  if n = 0 then ⟨0, 0⟩
  else
    let e := exponentFor p n d
    ⟨roundQuotient r neg (scaledNum n e) (scaledDen d e), e⟩

/-- A magnitude rounded to `p` significand bits. -/
def Scaled.roundTo (r : Config.Rounding) (p : Nat) (neg : Bool) (x : Scaled) : Scaled :=
  Sys2Proof.Machine.roundTo r p neg (x.significand * 2 ^ x.exponent.toNat) (2 ^ (-x.exponent).toNat)

/-- The product of two magnitudes, exact. -/
def Scaled.mul (x y : Scaled) : Scaled := ⟨x.significand * y.significand, x.exponent + y.exponent⟩

/-- The bits of the single-precision number with the given sign and with the magnitude `x`, whose significand is 0 or
lies in `[2 ^ 23, 2 ^ 24]`; no product `raw x 1e-7` is so small or so large that it has another form. -/
def singleBits (neg : Bool) (x : Scaled) : BitVec 32 :=
  if x.significand = 0 then 0
  else BitVec.ofNat 32 ((if neg then 2 ^ 31 else 0) + (x.exponent + 150).toNat * 2 ^ 23 + (x.significand - 2 ^ 23))

/-- `raw x 1e-7` in single precision, the product formed with `24 + extra` significand bits. The two factors are first
rounded to that same format by the same rule, so a raw value brought to another format before the product is not among
the cases (DESIGN CHOICE, log 23). -/
def degreesIn (r : Config.Rounding) (extra : Nat) (raw : Int) : BitVec 32 :=
  let neg : Bool := raw < 0
  let factor := roundTo r (24 + extra) false 1 10000000
  let product := ((roundTo r (24 + extra) neg raw.natAbs 1).mul factor).roundTo r (24 + extra) neg
  singleBits neg (product.roundTo r 24 neg)

/-- The degrees of a raw coordinate: "raw x 1e-7 = degrees", "single-precision float result" (48_payload_decoder R167,
R170), with the two parameters of the consumer's arithmetic (93 U9, log 16). -/
def degreesBits (raw : Int) : BitVec 32 := degreesIn Config.degreesRounding Config.degreesExtraBits raw

/-- The number a single-precision word stands for; `none` for an infinity or no number. -/
def singleValue (w : BitVec 32) : Option Rat :=
  let sign : Rat := if w.getLsbD 31 then -1 else 1
  let exponent := (w.extractLsb' 23 8).toNat
  let fraction := (w.extractLsb' 0 23).toNat
  if exponent = 255 then none
  else if exponent = 0 then some (sign * fraction / 2 ^ 149)
  else some (sign * ((2 ^ 23 + fraction : Nat) : Rat) * 2 ^ exponent / 2 ^ 150)

/-! ## The decoder -/

/-- The decoded record (48_payload_decoder R167). Longitude and latitude are single-precision degrees as bits (R170);
the raw integers they come from stand beside them, and so do the date and time fields the timestamp is made of. -/
structure NavPositionVelocityTime where
  utc : UtcFields
  timestamp : Timestamp
  dateValid : Bool
  timeValid : Bool
  timeFullyResolved : Bool
  magneticDeclinationValid : Bool
  timeAccuracy : BitVec 32
  fixType : FixType
  gnssFixOk : Bool
  differentialApplied : Bool
  satellites : Byte
  longitudeRaw : Int
  latitudeRaw : Int
  longitude : BitVec 32
  latitude : BitVec 32
  horizontalAccuracy : BitVec 32
  verticalAccuracy : BitVec 32
  deriving DecidableEq, Repr

/-- The date and time fields of a payload (48_payload_decoder R167). -/
def utcFieldsOf (p : List Byte) : UtcFields :=
  ⟨u16At p 4, u8At p 6, u8At p 7, u8At p 8, u8At p 9, u8At p 10, i32At p 16⟩

/-- `decode(payload)`: absent unless the length is exactly 92 (48_payload_decoder R166, R167). -/
def decodeNav (p : List Byte) : Option NavPositionVelocityTime :=
  if p.length = navLength then
    some
      { utc := utcFieldsOf p
        timestamp := timestampOf (utcFieldsOf p)
        dateValid := (u8At p 11).getLsbD 0
        timeValid := (u8At p 11).getLsbD 1
        timeFullyResolved := (u8At p 11).getLsbD 2
        magneticDeclinationValid := (u8At p 11).getLsbD 3
        timeAccuracy := u32At p 12
        fixType := fixTypeOf (u8At p 20)
        gnssFixOk := (u8At p 21).getLsbD 0
        differentialApplied := (u8At p 21).getLsbD 1
        satellites := u8At p 23
        longitudeRaw := i32At p 24
        latitudeRaw := i32At p 28
        longitude := degreesBits (i32At p 24)
        latitude := degreesBits (i32At p 28)
        horizontalAccuracy := u32At p 40
        verticalAccuracy := u32At p 44 }
  else none

/-- What the consumer does with a Frame: it applies the decoder to those of class 1 and id 7
(48_payload_decoder R165). -/
def decodeFrame (f : Frame) : Option NavPositionVelocityTime :=
  if f.cls = 1 ∧ f.id = 7 then decodeNav f.payload else none

end Sys2Proof.Machine
end

