-- ==== Sys2Proof/Machine/Session.lean ====
section
/-! DEFINITION. Runs of several steps, the pseudo-operations of 30_encoding R92 (INGEST, UBX, DRAIN, TAKE?), and
the decoded sequence of a stream (44_queue_host R153). -/

namespace Sys2Proof.Machine

/-- What comes after an outcome, if that is a next state. -/
def andThen (o : Host.Outcome State Fault Refusal) (f : State → Host.Outcome State Fault Refusal) :
    Host.Outcome State Fault Refusal :=
  match o with
  | .next t => f t
  | .fault r => .fault r
  | .refused r => .refused r

/-- `n` steps, ending at the first fault or refusal. -/
def run : Nat → State → Host.Outcome State Fault Refusal
  | 0, s => .next s
  | n + 1, s => andThen (step s) (run n)

/-- As many steps as there are requests: every request of the script is performed, but for the bytes that stay on
hold at the end because no TAKE or RST is left (44_queue_host R145). -/
def settle (s : State) : Host.Outcome State Fault Refusal := run s.script.length s

/-- The state with more requests offered after those already there. -/
def State.offer (s : State) (rs : List Request) : State := { s with script := s.script ++ rs }

/-- The `IN` requests of a byte sequence. -/
def inputs (bytes : List Byte) : List Request := bytes.map fun b => .event (.inp b)

/-- INGEST: `IN b` for each byte, left to right; with no bytes it does nothing (44_queue_host R150). A byte that a full
queue holds, and those after it, stay offered. Requests that were still offered before go first (30_encoding R91 says
that a script has none: DESIGN CHOICE, log 21). -/
def ingest (bytes : List Byte) (s : State) : Host.Outcome State Fault Refusal :=
  match bytes with
  | [] => .next s
  | _ :: _ => settle (s.offer (inputs bytes))

/-- One INGEST after the other (44_queue_host R151). -/
def ingestChunks : List (List Byte) → State → Host.Outcome State Fault Refusal
  | [], s => .next s
  | chunk :: rest, s => andThen (ingest chunk s) (ingestChunks rest)

/-- UBX(c, i, p): INGEST of `wire(c, i, p)` (30_encoding R92). -/
def ubx (c i : Byte) (p : List Byte) (s : State) : Host.Outcome State Fault Refusal := ingest (wire c i p) s

/-- TAKE?: `if HAS_PENDING then TAKE` (30_encoding R92). Requests that were still offered before go first, as for
INGEST, while HAS_PENDING is asked at once (30_encoding R91 says that a script has none: DESIGN CHOICE, log 21). -/
def takeIfPending (s : State) : Host.Outcome State Fault Refusal :=
  if s.pending then settle (s.offer [.event .take]) else .next s

/-- `n` rounds of TAKE?. -/
def drainRounds : Nat → State → Host.Outcome State Fault Refusal
  | 0, s => .next s
  | n + 1, s => andThen (takeIfPending s) (drainRounds n)

/-- DRAIN: `while HAS_PENDING: TAKE` (30_encoding R92). The loop ends after at most one round for every Frame in the
queue and for every request still offered, since each of these can queue one Frame. Requests that were still offered
before are performed on the way, bytes that a TAKE frees from a hold among them (30_encoding R91 says that a script has
none: DESIGN CHOICE, log 21). -/
def drain (s : State) : Host.Outcome State Fault Refusal := drainRounds (s.q.length + s.script.length) s

/-- `frames(s)`: the Frames queued when a byte sequence is fed from reset with `QCAP = inf` and no TAKE
(44_queue_host R153). -/
def frames (bytes : List Byte) : List Frame :=
  match ingest bytes State.reset with
  | .next t => t.q
  | .fault _ => []
  | .refused _ => []

/-- The Frames returned by the TAKE events of a run, in order. -/
def takenFrames (outs : List Output) : List Frame :=
  outs.filterMap fun o =>
    match o with
    | .taken r => r
    | .accepted _ => none
    | .wasReset => none
    | .pending _ => none
    | .peeked _ => none

/-- How many events of a run gave `ck_err` (43_checksum R136: a system counts them outside the block). -/
def ckErrCount (outs : List Output) : Nat := outs.countP Output.ckErr

/-- The bytes of the `IN` events of a script, in order. -/
def scriptBytes (rs : List Request) : List Byte :=
  rs.filterMap fun r =>
    match r with
    | .event (.inp b) => some b
    | .event .take => none
    | .event .rst => none
    | .event .hasPending => none
    | .event .peek => none
    | .upsetIn _ _ => none
    | .reserved _ => none

end Sys2Proof.Machine
end

