-- ==== Sys2Proof/Machine/Ports.lean ====
section
/-! DEFINITION. The port view of the block (10_state R34) and what one clock cycle does to it
(70_reset_and_hazards R221, R236): a mapping of the ports onto events, which `step` performs. -/

namespace Sys2Proof.Machine

/-- The input ports in one clock cycle (10_state R34). -/
structure PortsIn where
  rst : Bool
  inValid : Bool
  inData : Byte
  rdAddr : Half
  take : Bool
  deriving DecidableEq, Repr

/-- The output ports (10_state R34), `ck_err` apart: functions of the state before the cycle. -/
structure PortsOut where
  inReady : Bool
  pending : Bool
  headClass : Byte
  headId : Byte
  headLen : Half
  rdData : Byte
  deriving DecidableEq, Repr

/-- The byte of the read window (44_queue_host R147); with no head Frame, or past its end, any value (93 U6,
log 14). -/
def State.readWindow (s : State) (addr : Half) : Byte :=
  match s.q.head? with
  | some f => (f.payload[addr.toNat]?).getD (Config.freeByte (.rdData addr) s.draw)
  | none => Config.freeByte (.rdData addr) s.draw

/-- The outputs shown in a cycle (70_reset_and_hazards R236). The head outputs of an empty queue are free values
(44_queue_host R147, log 14). -/
def State.portsOut (s : State) (rdAddr : Half) : PortsOut where
  inReady := s.inReady
  pending := s.pending
  headClass := (s.q.head?.map Frame.cls).getD (Config.freeByte .headClass s.draw)
  headId := (s.q.head?.map Frame.id).getD (Config.freeByte .headId s.draw)
  headLen := (s.q.head?.map fun f => lengthField f.payload).getD (Config.freeHalf .headLen s.draw)
  rdData := s.readWindow rdAddr

/-- The events of one clock cycle: RST alone, or else a TAKE and then an `IN`; the `IN` is there only when
`in_ready` was 1 before the cycle (70_reset_and_hazards R236). -/
def State.cycleEvents (s : State) (p : PortsIn) : List Event :=
  if p.rst then [.rst]
  else (if p.take then [.take] else []) ++ (if p.inValid && s.inReady then [.inp p.inData] else [])

/-- One clock cycle. At this level the ports are the only source of events, so the cycle's events are the whole script
and whatever stood there before is dropped (DESIGN CHOICE, log 15). A new draw of the free values is taken each cycle
(log 14). -/
def cycle (p : PortsIn) (s : State) : Host.Outcome State Fault Refusal :=
  settle { s with script := (s.cycleEvents p).map .event, draw := s.draw + 1 }

/-- The port `ck_err` of a cycle that went from `s` to `t`: 1 when one of its events gave `ck_err`
(10_state R33 (c), R34). -/
def cycleCkErr (s t : State) : Bool := (t.outs.drop s.outs.length).any Output.ckErr

end Sys2Proof.Machine
end

