-- ==== Sys2Proof/Safety.lean ====
section
/-! DEFINITION. The words the claims are written in: the invariants of 10_state R45, the transition relation of R23,
dispatch by constructors (30_encoding R81), and the greedy reading of a whole stream (30_encoding R90). -/

namespace Sys2Proof.Machine

/-! ## Invariants (10_state R45) -/

/-- The first `n` bytes of PBUF are written. -/
def State.Filled (s : State) (n : Nat) : Prop := ∀ i, i < n → (s.pbuf.read i).isSome = true

/-- The two sums are the checksum of the given bytes. -/
def State.SumsOf (s : State) (bytes : List Byte) : Prop := (s.accA, s.accB) = ck bytes

/-- The invariants of 10_state R45, with the bytes accepted since the SYNCB match written as the registers that hold
them (clauses (i) to (v)); the bound of the queue (vi, R41); and the size of a payload (R40). -/
structure State.Inv (s : State) : Prop where
  /-- PBUF is in canonical form. -/
  pbufWf : s.pbuf.wf = true
  /-- R45 (vi): `|Q| <= QCAP`. -/
  queueBound : ∀ n h, s.cfg.qcap = .slots n h → s.q.length ≤ n
  /-- R40: a payload has 0 to 65535 bytes. -/
  payloadBound : ∀ f ∈ s.q, f.payload.length ≤ maxLen
  /-- R45 (i). -/
  atClass : s.tag = .awaitClass → s.SumsOf []
  /-- R45 (ii), (v). -/
  atId : s.tag = .awaitId → s.SumsOf [s.cls]
  /-- R45 (ii), (v). -/
  atLenLo : s.tag = .awaitLenLo → s.SumsOf [s.cls, s.mid]
  /-- R45 (ii), (v). -/
  atLenHi : s.tag = .awaitLenHi → s.SumsOf [s.cls, s.mid, s.lenlo]
  /-- R45 (iii), (v). -/
  atPayload : s.tag = .awaitPayload →
    s.off.toNat < s.len.toNat ∧ s.Filled s.off.toNat ∧
      s.SumsOf (covered s.cls s.mid s.len (s.pbufBytes s.off.toNat))
  /-- R45 (iv), (v). -/
  atChecksum : s.tag = .awaitChecksumA ∨ s.tag = .awaitChecksumB →
    s.off = s.len ∧ s.Filled s.len.toNat ∧
      s.SumsOf (covered s.cls s.mid s.len (s.pbufBytes s.len.toNat))

/-- There is room for one more Frame: `|Q| < QCAP` (43_checksum R135). -/
def State.HasRoom (s : State) : Prop := ∀ n h, s.cfg.qcap = .slots n h → s.q.length < n

/-- The queue is full: `|Q| >= QCAP` (44_queue_host R145). -/
def State.Full (s : State) : Prop := ∃ n h, s.cfg.qcap = .slots n h ∧ n ≤ s.q.length

/-- A request that is an `IN` event. -/
def IsInput (r : Request) : Prop := ∃ b, r = .event (.inp b)

/-- No request of the script is one of the event codes that do not exist (30_encoding R87). -/
def NoReserved (rs : List Request) : Prop := ∀ code, Request.reserved code ∉ rs

/-- Every request of the script is an event of the block (30_encoding R87, R88). -/
def OnlyEvents (rs : List Request) : Prop := ∀ r ∈ rs, ∃ e, r = .event e

/-- What the outside can see of two states, and what is still to come, is the same (10_state R44). -/
def SameOutside (s t : State) : Prop :=
  s.cfg = t.cfg ∧ s.tag = t.tag ∧ s.q = t.q ∧ s.script = t.script ∧ s.outs = t.outs

/-! ## Dispatch -/

/-- When the request `r` stands first in the script, the step is the operation `i`. -/
def Dispatches (s : State) (r : Request) (i : Instr) : Prop :=
  ∀ rest, s.script = r :: rest → step s = exec i s

/-- The operation of a request, by the constructors of the event and of the tag and then the byte, as 30_encoding
R81 says a model may do it; an independent reading of the map of R82. -/
def operationOf : Request → Tag → Instr
  | .event .take, _ => .take
  | .event .rst, _ => .rst
  | .event .hasPending, _ => .hasPending
  | .event .peek, _ => .peek
  | .upsetIn code b, _ => .rsvdTag code b
  | .reserved code, _ => .rsvdEv code
  | .event (.inp b), .awaitSyncA => if b = 0xB5 then .syncaHit else .syncaMiss b
  | .event (.inp b), .awaitSyncB => if b = 0x62 then .syncbHit else .syncbMiss b
  | .event (.inp b), .awaitClass => .cls b
  | .event (.inp b), .awaitId => .msgId b
  | .event (.inp b), .awaitLenLo => .lenlo b
  | .event (.inp b), .awaitLenHi => .lenhi b
  | .event (.inp b), .awaitPayload => .payload b
  | .event (.inp b), .awaitChecksumA => .cka b
  | .event (.inp b), .awaitChecksumB => .ckb b

/-- The tag after an accepted byte: the table of 10_state R23. -/
def tagAfter (s : State) (b : Byte) : Tag → Tag
  | .awaitSyncA => if b = 0xB5 then .awaitSyncB else .awaitSyncA
  | .awaitSyncB => if b = 0x62 then .awaitClass else .awaitSyncA
  | .awaitClass => .awaitId
  | .awaitId => .awaitLenLo
  | .awaitLenLo => .awaitLenHi
  | .awaitLenHi => if b.toNat * 256 + s.lenlo.toNat = 0 then .awaitChecksumA else .awaitPayload
  | .awaitPayload => if s.off.toNat + 1 = s.len.toNat then .awaitChecksumA else .awaitPayload
  | .awaitChecksumA => .awaitChecksumB
  | .awaitChecksumB => .awaitSyncA

/-! ## The stream as a whole (30_encoding R90) -/

/-- The Frames of a byte sequence read greedily from the left, with no machine and no running sums: a 0xB5 directly
followed by 0x62 starts a candidate, the next four bytes are its header, the next `len` its payload, the next two
its checksum; bytes once read are not read again (30_encoding R90, 40_sync R105). The number bounds the reads. -/
def readGreedy : Nat → List Byte → List Frame
  | 0, _ => []
  | n + 1, bytes =>
    match bytes with
    | [] => []
    | a :: afterA =>
      if a = 0xB5 then
        match afterA with
        | [] => []
        | b :: afterB =>
          if b = 0x62 then
            match afterB with
            | c :: i :: lo :: hi :: body =>
              let len := lo.toNat + 256 * hi.toNat
              match body.drop len with
              | ckA :: ckB :: after =>
                (if ck (c :: i :: lo :: hi :: body.take len) = (ckA, ckB) then [⟨c, i, body.take len⟩] else [])
                  ++ readGreedy n after
              | _ => []
            | _ => []
          else readGreedy n afterB
      else readGreedy n afterA

/-- The greedy reading of a whole byte sequence. -/
def greedyFrames (bytes : List Byte) : List Frame := readGreedy bytes.length bytes

/-- No two adjacent bytes `B5 62` (40_sync R106 (b)). -/
def NoSyncPair (bytes : List Byte) : Prop := ¬ [syncA, syncB] <:+: bytes

/-- The length of the run of 0xB5 at the end (40_sync R106). -/
def trailingSyncA (bytes : List Byte) : Nat := (bytes.reverse.takeWhile fun b => b == syncA).length

/-! ## The payload decoder (48_payload_decoder R167) -/

/-- The number that four bytes from an offset stand for, the least significant first. -/
def littleEndian32 (p : List Byte) (i : Nat) : Nat :=
  (p.getD i 0).toNat + 256 * (p.getD (i + 1) 0).toNat + 65536 * (p.getD (i + 2) 0).toNat +
    16777216 * (p.getD (i + 3) 0).toNat

/-- `z` is the two's complement reading of the 32-bit number `n`. -/
def IsSignedReading (z : Int) (n : Nat) : Prop :=
  -2147483648 ≤ z ∧ z < 2147483648 ∧ (z - (n : Int)) % 4294967296 = 0

end Sys2Proof.Machine
end

