-- ==== Sys2Proof/Certificates/Slice0/Obligations.lean ====
section
/-! DEFINITION. The statements for the provers. Each docstring names the rule of spec/ it formalises. -/

open Sys2Proof Sys2Proof.Machine

/-! ## Encoding -/

/-- 30_encoding R81, R82: no bit of an encoding is dropped, in the word and in the bytes. -/
def Obligations.DecodeEncodeAgree : Prop :=
  ∀ i : Instr, i.wellFormed = true →
    decodeWord (encodeWord i) = i ∧ ∀ rest, decode (encode i ++ rest) = .ok (i, rest)

/-- 30_encoding R81: every word decodes to a well-formed operation, and encoding that operation gives the word back on
all the bits that count: all of them for an `IN`, the event code alone otherwise. -/
def Obligations.EncodeDecodeKeepsSignificantBits : Prop :=
  ∀ w : DispatchWord, (decodeWord w).wellFormed = true ∧
    encodeWord (decodeWord w) = if evField w = 0 then w else w &&& 0x7000

/-- 30_encoding R82, R87: every word is of some row, and two different rows share a word only where the later of them is
row 2, 4, 12 or 17 (counted from 1). -/
def Obligations.OperationMapTotalAndOrdered : Prop :=
  (∀ w : DispatchWord, ∃ r ∈ operationMap, r.covers w = true) ∧
  ∀ (j k : Nat) (r t : OpRow) (w : DispatchWord), j < k → operationMap[j]? = some r → operationMap[k]? = some t →
    r.covers w = true → t.covers w = true → k + 1 = 2 ∨ k + 1 = 4 ∨ k + 1 = 12 ∨ k + 1 = 17

/-- 30_encoding R82: a few words written out from the columns ev, tag and b of the map. -/
def Obligations.WordsOfTheMapDecode : Prop :=
  decodeWord (0b000_0000_10110101#15) = .syncaHit ∧ decodeWord (0b000_0000_01100010#15) = .syncaMiss 0x62 ∧
  decodeWord (0b000_0001_01100010#15) = .syncbHit ∧ decodeWord (0b000_0001_10110101#15) = .syncbMiss 0xB5 ∧
  decodeWord (0b000_0010_00000101#15) = .cls 0x05 ∧ decodeWord (0b000_0101_11111111#15) = .lenhi 0xFF ∧
  decodeWord (0b000_0110_10110101#15) = .payload 0xB5 ∧ decodeWord (0b000_1000_00111000#15) = .ckb 0x38 ∧
  decodeWord (0b000_1001_00000001#15) = .rsvdTag 0 1 ∧ decodeWord (0b001_0000_00000000#15) = .take ∧
  decodeWord (0b010_0000_00000000#15) = .rst ∧ decodeWord (0b100_0000_00000000#15) = .peek ∧
  decodeWord (0b110_0000_00000000#15) = .rsvdEv 1

/-! ## The step -/

/-- 00_scope R8, 44_queue_host R145: a step performs the operation that the request standing first selects with the
tag; with no request it does nothing; during a hold the first request that is no `IN` goes first, and when there is
none the machine stays as it is. -/
def Obligations.StepRunsDecodedOperation : Prop :=
  ∀ s : State,
    (s.script = [] → step s = .next s) ∧
    (∀ r rest, s.script = r :: rest → s.inReady = true → step s = exec (decodeWord (dispatchWord r s.tag)) s) ∧
    (∀ ins r rest, s.inReady = false → (∀ x ∈ ins, IsInput x) → ¬ IsInput r → s.script = ins ++ r :: rest →
      step s = exec (decodeWord (dispatchWord r s.tag)) { s with script := r :: (ins ++ rest) }) ∧
    (s.inReady = false → (∀ x ∈ s.script, IsInput x) → step s = .next s)

/-- 30_encoding R81, R82: reading the dispatch word by the map gives the operation that a match on the event, then on
the tag, then on the byte gives. -/
def Obligations.MapAgreesWithMatchOnTag : Prop :=
  ∀ (r : Request) (t : Tag), decodeWord (dispatchWord r t) = operationOf r t

/-- 10_state R23: the complete transition relation, for a byte accepted in any of the nine tags. -/
def Obligations.TransitionRelation : Prop :=
  ∀ (s t : State) (b : Byte) (rest : List Request) (g : Tag),
    s.Inv → s.tag = g → s.inReady = true → s.script = .event (.inp b) :: rest → step s = .next t →
    t.tag = tagAfter s b g ∧
    (g = .awaitLenHi → t.off = 0) ∧ (g = .awaitPayload → t.off.toNat = s.off.toNat + 1) ∧ t.script = rest

/-! ## Synchronization (40_sync) -/

/-- 40_sync R100. -/
def Obligations.SyncAHitAdvances : Prop :=
  ∀ s : State, s.tag = .awaitSyncA →
    Dispatches s (.event (.inp 0xB5)) .syncaHit ∧
    exec .syncaHit s = .next { s with
      tag := .awaitSyncB, script := s.script.tail, outs := s.outs ++ [.accepted false] }

/-- 40_sync R101. -/
def Obligations.SyncAMissChangesNothing : Prop :=
  ∀ (s : State) (b : Byte), s.tag = .awaitSyncA → b ≠ 0xB5 →
    Dispatches s (.event (.inp b)) (.syncaMiss b) ∧
    exec (.syncaMiss b) s = .next { s with script := s.script.tail, outs := s.outs ++ [.accepted false] }

/-- 40_sync R102. -/
def Obligations.SyncBHitBeginsCandidate : Prop :=
  ∀ s : State, s.tag = .awaitSyncB →
    Dispatches s (.event (.inp 0x62)) .syncbHit ∧
    exec .syncbHit s = .next { s with
      accA := 0, accB := 0, tag := .awaitClass, script := s.script.tail, outs := s.outs ++ [.accepted false] }

/-- 40_sync R103: also for the byte 0xB5, which is consumed. -/
def Obligations.SyncBMissReturnsToSyncA : Prop :=
  ∀ (s : State) (b : Byte), s.tag = .awaitSyncB → b ≠ 0x62 →
    Dispatches s (.event (.inp b)) (.syncbMiss b) ∧
    exec (.syncbMiss b) s = .next { s with
      tag := .awaitSyncA, script := s.script.tail, outs := s.outs ++ [.accepted false] }

/-! ## Header (41_header) -/

/-- 41_header R110, with the sums of 43_checksum R131 written as numbers. -/
def Obligations.ClassStoresAndSums : Prop :=
  ∀ (s : State) (b : Byte), s.tag = .awaitClass →
    Dispatches s (.event (.inp b)) (.cls b) ∧
    exec (.cls b) s = .next { s with
      cls := b
      accA := BitVec.ofNat 8 ((s.accA.toNat + b.toNat) % 256)
      accB := BitVec.ofNat 8 ((s.accB.toNat + (s.accA.toNat + b.toNat) % 256) % 256)
      tag := .awaitId, script := s.script.tail, outs := s.outs ++ [.accepted false] } ∧
    (s.accA = 0 → s.accB = 0 → ∃ t, exec (.cls b) s = .next t ∧ t.accA = b ∧ t.accB = b)

/-- 41_header R111. -/
def Obligations.IdStoresAndSums : Prop :=
  ∀ (s : State) (b : Byte), s.tag = .awaitId →
    Dispatches s (.event (.inp b)) (.msgId b) ∧
    exec (.msgId b) s = .next { s with
      mid := b
      accA := BitVec.ofNat 8 ((s.accA.toNat + b.toNat) % 256)
      accB := BitVec.ofNat 8 ((s.accB.toNat + (s.accA.toNat + b.toNat) % 256) % 256)
      tag := .awaitLenLo, script := s.script.tail, outs := s.outs ++ [.accepted false] }

/-- 41_header R112. -/
def Obligations.LenLoStoresAndSums : Prop :=
  ∀ (s : State) (b : Byte), s.tag = .awaitLenLo →
    Dispatches s (.event (.inp b)) (.lenlo b) ∧
    exec (.lenlo b) s = .next { s with
      lenlo := b
      accA := BitVec.ofNat 8 ((s.accA.toNat + b.toNat) % 256)
      accB := BitVec.ofNat 8 ((s.accB.toNat + (s.accA.toNat + b.toNat) % 256) % 256)
      tag := .awaitLenHi, script := s.script.tail, outs := s.outs ++ [.accepted false] }

/-- 41_header R114, 30_encoding R79. What `LENLO` holds afterwards is not said: its live range has ended (10_state R32;
log 4, with the model's own draw counter). -/
def Obligations.LenHiAssemblesLength : Prop :=
  ∀ (s : State) (b : Byte), s.tag = .awaitLenHi →
    Dispatches s (.event (.inp b)) (.lenhi b) ∧
    ∃ deadLenlo counter, exec (.lenhi b) s = .next { s with
      len := BitVec.ofNat 16 (s.lenlo.toNat + 256 * b.toNat)
      off := 0
      accA := BitVec.ofNat 8 ((s.accA.toNat + b.toNat) % 256)
      accB := BitVec.ofNat 8 ((s.accB.toNat + (s.accA.toNat + b.toNat) % 256) % 256)
      tag := if s.lenlo.toNat + 256 * b.toNat > 0 then .awaitPayload else .awaitChecksumA
      lenlo := deadLenlo, draw := counter
      script := s.script.tail, outs := s.outs ++ [.accepted false] }

/-- 41_header R115: the four header operations of one candidate, in closed form. -/
def Obligations.HeaderClosedForm : Prop :=
  ∀ (s : State) (c i l h : Byte) (rest : List Request),
    s.tag = .awaitClass → s.accA = 0 → s.accB = 0 → s.script = inputs [c, i, l, h] ++ rest →
    ∃ t, run 4 s = .next t ∧ t.cls = c ∧ t.mid = i ∧ t.len.toNat = l.toNat + 256 * h.toNat ∧ t.off = 0 ∧
      (t.accA, t.accB) = ck [c, i, l, h] ∧
      t.accA.toNat = (c.toNat + i.toNat + l.toNat + h.toNat) % 256 ∧
      t.accB.toNat = (4 * c.toNat + 3 * i.toNat + 2 * l.toNat + h.toNat) % 256 ∧ t.script = rest

/-! ## Payload (42_payload) -/

/-- 42_payload R120: the byte is stored at the offset `OFF` and nowhere else. -/
def Obligations.PayloadStoresAtOffset : Prop :=
  ∀ (s : State) (b : Byte), s.tag = .awaitPayload → s.off.toNat < s.len.toNat →
    Dispatches s (.event (.inp b)) (.payload b) ∧
    ∃ m : Memory, exec (.payload b) s = .next { s with
        pbuf := m
        off := BitVec.ofNat 16 (s.off.toNat + 1)
        accA := BitVec.ofNat 8 ((s.accA.toNat + b.toNat) % 256)
        accB := BitVec.ofNat 8 ((s.accB.toNat + (s.accA.toNat + b.toNat) % 256) % 256)
        tag := if s.off.toNat + 1 = s.len.toNat then .awaitChecksumA else .awaitPayload
        script := s.script.tail, outs := s.outs ++ [.accepted false] } ∧
      m.read s.off.toNat = some b ∧ ∀ a, a ≠ s.off.toNat → m.read a = s.pbuf.read a

/-- 10_state R31: PBUF has no offset 65535. The model faults on a store there (log 11, DEDUCED), and on no other. -/
def Obligations.PayloadFaultsOnlyPastPbuf : Prop :=
  ∀ (s : State) (b : Byte),
    (s.off.toNat = 65535 → exec (.payload b) s = .fault .pbufOffsetAbsent) ∧
    (s.off.toNat < 65535 → ∃ t, exec (.payload b) s = .next t ∧ t.pbuf.read s.off.toNat = some b ∧
      ∀ a, a ≠ s.off.toNat → t.pbuf.read a = s.pbuf.read a)

/-- 42_payload R123: after the payload events of a candidate, PBUF holds the payload in arrival order and the sums are
the checksum of header and payload. -/
def Obligations.PayloadFillsBufferInOrder : Prop :=
  ∀ (s : State) (p : List Byte) (rest : List Request),
    s.tag = .awaitPayload → s.off = 0 → s.len.toNat = p.length → p ≠ [] →
    s.SumsOf (covered s.cls s.mid s.len []) → s.script = inputs p ++ rest →
    ∃ t, run p.length s = .next t ∧ t.tag = .awaitChecksumA ∧ t.off = t.len ∧ t.len = s.len ∧
      t.pbufBytes t.len.toNat = p ∧ (∀ i, i < p.length → t.pbuf.read i = p[i]?) ∧
      t.SumsOf (covered s.cls s.mid s.len p) ∧ t.q = s.q ∧ t.script = rest

/-! ## Checksum (43_checksum) -/

/-- 43_checksum R132 (1), (2): the two sums in closed form. -/
def Obligations.ChecksumClosedForm : Prop :=
  ∀ bytes : List Byte,
    (ck bytes).1.toNat = (bytes.map BitVec.toNat).sum % 256 ∧
    (ck bytes).2.toNat = ((bytes.zipIdx.map fun p => (bytes.length - p.2) * p.1.toNat).sum) % 256

/-- 10_state R45 (iv), (v) read at CKB: the registers hold the batch checksum of the stored candidate, so the comparison
is the one of the batch form (43_checksum R133). The invariant itself is the subject of `StepKeepsInvariants`; that the
steps from SYNCB.HIT establish it is `CandidateSumsFromSyncB`. -/
def Obligations.RunningSumsEqualBatchChecksum : Prop :=
  ∀ (s : State) (b : Byte), s.Inv → s.tag = .awaitChecksumB →
    (s.accA, s.accB) = ck ([s.cls, s.mid, lowByte s.len, highByte s.len] ++ s.pbufBytes s.len.toNat) ∧
    (s.checksumMatches b = true ↔
      ck ([s.cls, s.mid, lowByte s.len, highByte s.len] ++ s.pbufBytes s.len.toNat) = (s.ck1, b))

/-- 43_checksum R133, with no invariant assumed: whatever the state, the steps that take one candidate from SYNCB.HIT to
AwaitChecksumB leave in the registers the batch checksum of its class, id, length and payload, and the candidate itself
in the scratch. -/
def Obligations.CandidateSumsFromSyncB : Prop :=
  ∀ (s : State) (c i a : Byte) (p : List Byte) (rest : List Request),
    s.tag = .awaitSyncB → p.length ≤ 65535 →
    s.script = inputs (syncB :: (covered c i (lengthField p) p ++ [a])) ++ rest →
    ∃ t, run (p.length + 6) s = .next t ∧ t.tag = .awaitChecksumB ∧ t.script = rest ∧ t.q = s.q ∧
      t.cls = c ∧ t.mid = i ∧ t.len.toNat = p.length ∧ t.off = t.len ∧ t.ck1 = a ∧
      t.pbufBytes t.len.toNat = p ∧
      (t.accA, t.accB) = ck ([t.cls, t.mid, lowByte t.len, highByte t.len] ++ t.pbufBytes t.len.toNat)

/-- 43_checksum R137 (c), (d): a change of one covered byte always changes the first sum; the change (+1, -2, +1) of
three consecutive ones changes neither sum. -/
def Obligations.WhatTheChecksumCatches : Prop :=
  (∀ (before after : List Byte) (x y : Byte), x ≠ y →
    (ck (before ++ x :: after)).1 ≠ (ck (before ++ y :: after)).1) ∧
  ∀ (before after : List Byte) (x y z : Byte),
    ck (before ++ x :: y :: z :: after) = ck (before ++ (x + 1) :: (y - 2) :: (z + 1) :: after)

/-- 43_checksum R134. -/
def Obligations.CkaOnlyStores : Prop :=
  ∀ (s : State) (b : Byte), s.tag = .awaitChecksumA →
    Dispatches s (.event (.inp b)) (.cka b) ∧
    exec (.cka b) s = .next { s with
      ck1 := b, tag := .awaitChecksumB, script := s.script.tail, outs := s.outs ++ [.accepted false] }

/-- 43_checksum R135, match. `dead` stands for the scratch registers, PBUF and the draw counter, of which nothing is
said (R135 corner case 6; log 4). -/
def Obligations.CkbMatchPublishesFrame : Prop :=
  ∀ (s : State) (b : Byte), s.tag = .awaitChecksumB → s.HasRoom → s.ck1 = s.accA → b = s.accB →
    Dispatches s (.event (.inp b)) (.ckb b) ∧
    ∃ (dead : State) (f : Frame), exec (.ckb b) s = .next { dead with
        cfg := s.cfg, tag := .awaitSyncA, q := s.q ++ [f]
        script := s.script.tail, outs := s.outs ++ [.accepted false] } ∧
      f.cls = s.cls ∧ f.id = s.mid ∧ f.payload.length = s.len.toNat ∧
      ∀ i v, i < s.len.toNat → s.pbuf.read i = some v → f.payload[i]? = some v

/-- 43_checksum R135, R136 and 60_exceptions R192, mismatch, with the whole of the scratch dead. -/
def Obligations.CkbMismatchEmitsCkErr : Prop :=
  ∀ (s : State) (b : Byte), s.tag = .awaitChecksumB → s.HasRoom → ¬ (s.ck1 = s.accA ∧ b = s.accB) →
    Dispatches s (.event (.inp b)) (.ckb b) ∧
    ∃ dead : State, exec (.ckb b) s = .next { dead with
      cfg := s.cfg, tag := .awaitSyncA, q := s.q
      script := s.script.tail, outs := s.outs ++ [.accepted true] }

/-- 43_checksum R136: `ck_err` is 1 in no event but a failing CKB. -/
def Obligations.CkErrOnlyFromFailingCkb : Prop :=
  ∀ (i : Instr) (s t : State), exec i s = .next t → ckErrCount t.outs ≠ ckErrCount s.outs →
    ckErrCount t.outs = ckErrCount s.outs + 1 ∧ t.q = s.q ∧
    ∃ b, i = .ckb b ∧ s.inReady = true ∧ ¬ (s.ck1 = s.accA ∧ b = s.accB)

/-! ## Queue and host operations (44_queue_host) -/

/-- 44_queue_host R145: on hold the event does not happen, whatever the byte, and nothing changes; the machine on hold
with only bytes offered is stuck; with `QCAP = inf` there is no hold. -/
def Obligations.FullQueueHoldsInput : Prop :=
  (∀ (s : State) (b : Byte), s.tag = .awaitChecksumB → s.Full →
    s.inReady = false ∧ exec (.ckb b) s = .next s) ∧
  (∀ s : State, s.tag = .awaitChecksumB → s.Full → (∀ r ∈ s.script, IsInput r) → ∀ n, run n s = .next s) ∧
  (∀ s : State, s.inReady = false → s.tag = .awaitChecksumB ∧ s.Full) ∧
  (∀ s : State, s.cfg.qcap = .inf → s.inReady = true)

/-- 44_queue_host R145: a TAKE or an RST lifts the hold, nothing else does. -/
def Obligations.OnlyTakeOrResetLiftsHold : Prop :=
  (∀ s t : State, s.Inv → s.inReady = false → exec .take s = .next t →
    t.inReady = true ∧ s.q.length = t.q.length + 1 ∧ t.tag = s.tag) ∧
  (∀ s t : State, exec .rst s = .next t → t.inReady = true) ∧
  ∀ (s t : State) (i : Instr) (b : Byte), s.inReady = false → i = .hasPending ∨ i = .peek ∨ i = .ckb b →
    exec i s = .next t → t.inReady = false

/-- 44_queue_host R146. -/
def Obligations.HasPendingAnswersNonEmpty : Prop :=
  ∀ s : State, Dispatches s (.event .hasPending) .hasPending ∧
    exec .hasPending s = .next { s with
      script := s.script.tail, outs := s.outs ++ [.pending (decide (0 < s.q.length))] }

/-- 44_queue_host R147: the query. -/
def Obligations.PeekShowsHead : Prop :=
  ∀ s : State, Dispatches s (.event .peek) .peek ∧
    (s.q = [] → exec .peek s = .next { s with script := s.script.tail, outs := s.outs ++ [.peeked none] }) ∧
    ∀ f fs, s.q = f :: fs → exec .peek s = .next { s with
      script := s.script.tail
      outs := s.outs ++ [.peeked (some ⟨f.cls, f.id, BitVec.ofNat 16 f.payload.length, f.payload⟩)] }

/-- 44_queue_host R147: the port view shows the head Frame, and no operation but TAKE and RST changes what is shown of
it. -/
def Obligations.HeadViewStable : Prop :=
  (∀ (s : State) (f : Frame) (fs : List Frame) (a : Half), s.q = f :: fs →
    (s.portsOut a).pending = true ∧ (s.portsOut a).headClass = f.cls ∧ (s.portsOut a).headId = f.id ∧
    (s.portsOut a).headLen = BitVec.ofNat 16 f.payload.length ∧
    ∀ h : a.toNat < f.payload.length, (s.portsOut a).rdData = f.payload[a.toNat]) ∧
  ∀ (i : Instr) (s t : State) (a : Half), exec i s = .next t → i ≠ .take → i ≠ .rst → s.q ≠ [] →
    (t.portsOut a).headClass = (s.portsOut a).headClass ∧ (t.portsOut a).headId = (s.portsOut a).headId ∧
    (t.portsOut a).headLen = (s.portsOut a).headLen ∧ t.q.head? = s.q.head?

/-- 44_queue_host R148: the oldest Frame is returned and removed; nothing else changes, in mid-candidate too. -/
def Obligations.TakeRemovesOldest : Prop :=
  ∀ (s : State) (f : Frame) (fs : List Frame), s.q = f :: fs →
    Dispatches s (.event .take) .take ∧
    exec .take s = .next { s with q := fs, script := s.script.tail, outs := s.outs ++ [.taken (some f)] }

/-- 44_queue_host R149, 60_exceptions R193. -/
def Obligations.TakeOnEmptyReturnsNone : Prop :=
  ∀ s : State, s.q = [] →
    Dispatches s (.event .take) .take ∧
    exec .take s = .next { s with script := s.script.tail, outs := s.outs ++ [.taken none] }

/-- 10_state R41: who writes the queue, and how. -/
def Obligations.QueueWriters : Prop :=
  ∀ (i : Instr) (s t : State), exec i s = .next t →
    t.q = s.q ∨
    (∃ b f, i = .ckb b ∧ s.ck1 = s.accA ∧ b = s.accB ∧ t.q = s.q ++ [f]) ∨
    (i = .take ∧ ∃ f, s.q = f :: t.q) ∨
    (i = .rst ∧ t.q = [])

/-- 10_state R40, R45 (vi): a Frame enters the queue only at a CKB event at which the checksum of its own class, id,
length and payload is the two bytes received. -/
def Obligations.OnlyValidatedFramesEnter : Prop :=
  ∀ (s t : State), s.Inv → step s = .next t → s.q.length < t.q.length →
    ∃ b f, s.tag = .awaitChecksumB ∧ s.present.script = .event (.inp b) :: t.script ∧ t.q = s.q ++ [f] ∧
      ck ([f.cls, f.id, lowByte (lengthField f.payload), highByte (lengthField f.payload)] ++ f.payload) = (s.ck1, b)

/-! ## Reset (70_reset_and_hazards) and the reserved rows (30_encoding) -/

/-- 70_reset_and_hazards R220, with the outputs it names. `dead` stands for the scratch registers, PBUF and the draw
counter, of which nothing is said. -/
def Obligations.ResetDiscardsEverything : Prop :=
  ∀ s : State, Dispatches s (.event .rst) .rst ∧
    ∃ dead t : State, exec .rst s = .next t ∧
      t = { dead with
        cfg := s.cfg, tag := .awaitSyncA, q := [], script := s.script.tail, outs := s.outs ++ [.wasReset] } ∧
      t.pending = false ∧ t.inReady = true ∧ t.ckErr = false ∧ ckErrCount t.outs = ckErrCount s.outs

/-- 10_state R46: what reset leaves, as far as the spec says it. -/
def Obligations.ResetValues : Prop :=
  State.reset.tag = .awaitSyncA ∧ State.reset.q = [] ∧ State.reset.pending = false ∧
  State.reset.inReady = true ∧ State.reset.ckErr = false

/-- 30_encoding R88: the reserved tag codes are unreachable, since the nine tags have the codes 0 to 8 and no event in any
of them selects RSVD.TAG; and the recovery the spec asks of a gate-level implementation. That an upset can be asked for
in the script at all is the model's own choice (log 5). -/
def Obligations.ReservedTagRecovers : Prop :=
  (∀ w : BitVec 4, (∃ t : Tag, t.code = w) ↔ w.toNat ≤ 8) ∧
  (∀ (e : Event) (t : Tag) (code : Fin 7) (b : Byte), decodeWord (dispatchWord (.event e) t) ≠ .rsvdTag code b) ∧
  ∀ (s : State) (code : Fin 7) (b : Byte),
    Dispatches s (.upsetIn code b) (.rsvdTag code b) ∧
    exec (.rsvdTag code b) s = .next { s with
      tag := .awaitSyncA, script := s.script.tail, outs := s.outs ++ [.accepted false] }

/-- 30_encoding R87: no such event exists; the model refuses it by name (log 6). -/
def Obligations.ReservedEventRefused : Prop :=
  ∀ (s : State) (code : Fin 3),
    Dispatches s (.reserved code) (.rsvdEv code) ∧ exec (.rsvdEv code) s = .refused .reservedEvent

/-- 60_exceptions R200: what each condition does to the tag, to the queue, and to the rest. -/
def Obligations.ConditionEffects : Prop :=
  ∀ s : State,
    s.raise .syncLoss = { s with tag := .awaitSyncA } ∧
    (∃ dead : State, s.raise .checksumMismatch =
      { dead with cfg := s.cfg, tag := .awaitSyncA, q := s.q, script := s.script, outs := s.outs }) ∧
    s.raise .emptyDequeue = s ∧ s.raise .queueFullHold = s

/-! ## The whole machine -/

/-- 10_state R45: the invariants hold after reset. The zero scratch of the model's reset state plays no part. -/
def Obligations.ResetMeetsInvariants : Prop := State.reset.Inv

/-- 10_state R45: every step keeps the invariants. -/
def Obligations.StepKeepsInvariants : Prop := ∀ s t : State, s.Inv → step s = .next t → t.Inv

/-- 30_encoding R85: no input is illegal. From a state with the invariants, a step that is not asked for an event that
does not exist completes. -/
def Obligations.NoInputIsIllegal : Prop :=
  ∀ s : State, s.Inv → NoReserved s.script → ∃ t, step s = .next t

/-- 44_queue_host R151: chunk boundaries do not matter, whatever the state. With requests still offered before, which a
script of 30_encoding R91 never has, what an INGEST does is the model's choice (log 21). -/
def Obligations.ChunkBoundaryInvariance : Prop :=
  ∀ (chunks : List (List Byte)) (s : State), ingestChunks chunks s = ingest chunks.flatten s

/-- 44_queue_host R152: the framing round trip, split anywhere. -/
def Obligations.FramingRoundTrip : Prop :=
  ∀ (s : State) (c i : Byte) (p : List Byte) (chunks : List (List Byte)),
    s.tag = .awaitSyncA → s.HasRoom → s.script = [] → p.length ≤ 65535 → chunks.flatten = wire c i p →
    ∃ t, ingestChunks chunks s = .next t ∧ t.q = s.q ++ [⟨c, i, p⟩] ∧
      ckErrCount t.outs = ckErrCount s.outs ∧ t.tag = .awaitSyncA ∧ t.script = []

/-- 44_queue_host R154: a frame with wrong checksum bytes is dropped, with one `ck_err`, and the well-formed frame right
after it is found. -/
def Obligations.CorruptedFrameThenGoodFrame : Prop :=
  ∀ (s : State) (c i : Byte) (p : List Byte) (a b : Byte) (c2 i2 : Byte) (p2 : List Byte),
    s.tag = .awaitSyncA → s.HasRoom → s.script = [] → p.length ≤ 65535 → p2.length ≤ 65535 →
    (a, b) ≠ ck (covered c i (lengthField p) p) →
    ∃ t, ingest (frameBytes c i p a b ++ wire c2 i2 p2) s = .next t ∧ t.q = s.q ++ [⟨c2, i2, p2⟩] ∧
      ckErrCount t.outs = ckErrCount s.outs + 1 ∧ t.tag = .awaitSyncA ∧ t.script = []

/-- 30_encoding R90: the machine, fed byte by byte, decodes the Frames of the greedy left-to-right reading of the whole
stream. -/
def Obligations.MachineReadsGreedily : Prop := ∀ bytes : List Byte, frames bytes = greedyFrames bytes

/-- 44_queue_host R153, second part: a stream of well-formed frames decodes to those Frames. -/
def Obligations.FramesOfWellFormedStream : Prop :=
  ∀ fs : List Frame, (∀ f ∈ fs, f.payload.length ≤ 65535) →
    frames ((fs.map fun f => wire f.cls f.id f.payload).flatten) = fs

/-- 44_queue_host R153, 20_memory R62: with any `QCAP` and TAKE events and queries anywhere, the Frames taken and then
those still queued are the Frames of the bytes accepted so far, in order. -/
def Obligations.TakenFramesFollowStream : Prop :=
  ∀ (s t : State) (n : Nat), s.tag = .awaitSyncA → Request.event .rst ∉ s.script → OnlyEvents s.script →
    run n s = .next t →
    ∃ accepted, scriptBytes s.script = accepted ++ scriptBytes t.script ∧
      takenFrames t.outs ++ t.q = takenFrames s.outs ++ s.q ++ frames accepted ∧
      frames accepted <+: frames (scriptBytes s.script)

/-- 10_state R32: outside their live ranges the scratch registers and PBUF cannot be observed: two machines that are
hunting for sync and differ in them alone give the same answers to everything that follows. -/
def Obligations.DeadScratchUnobservable : Prop :=
  ∀ (s t s' : State) (n : Nat), SameOutside s t → s.tag = .awaitSyncA ∨ s.tag = .awaitSyncB →
    run n s = .next s' → ∃ t', run n t = .next t' ∧ SameOutside s' t'

/-- 44_queue_host R150: how many Frames an INGEST of n bytes can queue, from any state. -/
def Obligations.FramesPerIngestBound : Prop :=
  ∀ (bytes : List Byte) (s t : State), s.script = [] → ingest bytes s = .next t →
    t.q.length ≤ s.q.length + (bytes.length + 7) / 8

/-- 40_sync R106 (b): noise without an adjacent `B5 62` queues nothing and ends in AwaitSyncB exactly when it ends with
an odd run of 0xB5. -/
def Obligations.NoiseWithoutSyncPair : Prop :=
  ∀ (s : State) (g : List Byte), s.tag = .awaitSyncA → s.script = [] → NoSyncPair g →
    ∃ t, ingest g s = .next t ∧ t.q = s.q ∧ ckErrCount t.outs = ckErrCount s.outs ∧ t.script = [] ∧
      t.tag = if trailingSyncA g % 2 = 1 then .awaitSyncB else .awaitSyncA

/-- 40_sync R106: after noise that ends in AwaitSyncA with nothing queued, exactly the frame that follows is found; after
noise that ends in AwaitSyncB, the frame's own sync bytes are lost (c). -/
def Obligations.FrameAfterNoise : Prop :=
  ∀ (s u : State) (g : List Byte) (c i : Byte) (p : List Byte),
    s.tag = .awaitSyncA → s.HasRoom → s.script = [] → p.length ≤ 65535 → ingest g s = .next u → u.q = s.q →
    (u.tag = .awaitSyncA →
      ∃ t, ingest (g ++ wire c i p) s = .next t ∧ t.q = s.q ++ [⟨c, i, p⟩] ∧ t.tag = .awaitSyncA) ∧
    (u.tag = .awaitSyncB →
      ∃ t, ingest (g ++ [syncA, syncB]) s = .next t ∧ t.q = s.q ∧ t.tag = .awaitSyncA)

/-- 70_reset_and_hazards R236: in one clock cycle RST goes alone; otherwise a TAKE goes before an `IN`, and a byte held
before the cycle is not accepted in it even though the TAKE frees a slot. 10_state R33 (c), R34: the port `ck_err` is 1
exactly in a cycle whose `IN` is a failing CKB. That the cycle's events take the place of whatever stood in the script
(`script := []`, `t.script = []`) is the model's choice (log 15), and so is the draw counter (log 14). -/
def Obligations.ClockCycleOrder : Prop :=
  ∀ (p : PortsIn) (s : State),
    (p.rst = true → ∃ t, cycle p s = .next t ∧ t.tag = .awaitSyncA ∧ t.q = [] ∧ t.script = [] ∧
      t.outs = s.outs ++ [.wasReset] ∧ cycleCkErr s t = false) ∧
    (p.rst = false → p.take = true → p.inValid = false ∨ s.inReady = false →
      ∃ t, cycle p s = .next t ∧ t.tag = s.tag ∧ t.q = s.q.tail ∧ t.outs = s.outs ++ [.taken s.q.head?]) ∧
    (p.rst = false → p.take = true → p.inValid = true → s.inReady = true →
      ∀ u, exec .take { s with script := [.event .take, .event (.inp p.inData)], draw := s.draw + 1 } = .next u →
        cycle p s = exec (operationOf (.event (.inp p.inData)) s.tag) u) ∧
    (p.rst = false → p.take = false → p.inValid = true → s.inReady = true →
      cycle p s = exec (operationOf (.event (.inp p.inData)) s.tag)
        { s with script := [.event (.inp p.inData)], draw := s.draw + 1 }) ∧
    (p.rst = false → p.take = false → p.inValid = false ∨ s.inReady = false →
      cycle p s = .next { s with script := [], draw := s.draw + 1 }) ∧
    ∀ t, cycle p s = .next t →
      (cycleCkErr s t = true ↔ p.rst = false ∧ p.inValid = true ∧ s.inReady = true ∧ s.tag = .awaitChecksumB ∧
        ¬ (s.ck1 = s.accA ∧ p.inData = s.accB))

/-- 30_encoding R92: DRAIN returns every Frame of the queue in order and leaves it empty, whatever the candidate in
progress, which it does not disturb (44_queue_host R148). With requests still offered, which a script of R91 never has,
it leaves the queue empty too; that they are performed on the way is the model's choice (log 21). -/
def Obligations.DrainReturnsQueueInOrder : Prop :=
  (∀ s : State, s.script = [] →
    ∃ t, drain s = .next t ∧ takenFrames t.outs = takenFrames s.outs ++ s.q ∧
      t = { s with q := [], outs := t.outs }) ∧
  ∀ s t : State, drain s = .next t → t.q = []

/-- 44_queue_host R150: INGEST performs `IN` for each byte; only a full queue leaves bytes offered, and then nothing
else. With requests still offered before, which a script of R91 never has, that they go first is the model's choice
(log 21). -/
def Obligations.IngestAcceptsAllUnlessHeld : Prop :=
  ∀ (s t : State) (bytes : List Byte), bytes ≠ [] → ingest bytes s = .next t →
    t.script = [] ∨ (t.inReady = false ∧ ∀ r ∈ t.script, IsInput r)

/-! ## Outside the block (48_payload_decoder) -/

/-- 48_payload_decoder R166: absent exactly for a length other than 92; R167: every field, little-endian at its offset;
R169: the fix type. The signed reading of the nanosecond and of the two coordinates is two's complement, which is the
model's choice (PRESUMED, log 16). -/
def Obligations.NavDecoderFields : Prop :=
  ∀ p : List Byte,
    (decodeNav p = none ↔ p.length ≠ 92) ∧
    ∀ r, decodeNav p = some r →
      r.utc.year.toNat = (p.getD 4 0).toNat + 256 * (p.getD 5 0).toNat ∧
      r.utc.month = p.getD 6 0 ∧ r.utc.day = p.getD 7 0 ∧ r.utc.hour = p.getD 8 0 ∧ r.utc.minute = p.getD 9 0 ∧
      r.utc.second = p.getD 10 0 ∧
      (r.dateValid = true ↔ (p.getD 11 0).toNat % 2 = 1) ∧
      (r.timeValid = true ↔ (p.getD 11 0).toNat / 2 % 2 = 1) ∧
      (r.timeFullyResolved = true ↔ (p.getD 11 0).toNat / 4 % 2 = 1) ∧
      (r.magneticDeclinationValid = true ↔ (p.getD 11 0).toNat / 8 % 2 = 1) ∧
      r.timeAccuracy.toNat = littleEndian32 p 12 ∧
      IsSignedReading r.utc.nanosecond (littleEndian32 p 16) ∧
      (r.fixType = .noFix ↔ p.getD 20 0 = 0) ∧ (r.fixType = .deadReckoning ↔ p.getD 20 0 = 1) ∧
      (r.fixType = .fix2D ↔ p.getD 20 0 = 2) ∧ (r.fixType = .fix3D ↔ p.getD 20 0 = 3) ∧
      (r.fixType = .gnssDeadReckoning ↔ p.getD 20 0 = 4) ∧ (r.fixType = .timeOnly ↔ p.getD 20 0 = 5) ∧
      (5 < (p.getD 20 0).toNat → r.fixType = .other (p.getD 20 0)) ∧
      (r.gnssFixOk = true ↔ (p.getD 21 0).toNat % 2 = 1) ∧
      (r.differentialApplied = true ↔ (p.getD 21 0).toNat / 2 % 2 = 1) ∧
      r.satellites = p.getD 23 0 ∧
      IsSignedReading r.longitudeRaw (littleEndian32 p 24) ∧
      IsSignedReading r.latitudeRaw (littleEndian32 p 28) ∧
      r.horizontalAccuracy.toNat = littleEndian32 p 40 ∧
      r.verticalAccuracy.toNat = littleEndian32 p 44

/-- 48_payload_decoder R168, 93 U14: the timestamp is refused exactly for a negative nanosecond or a date the calendar
does not have, and otherwise has the fields as they are, the nanosecond over 10^6 as milliseconds and a zero offset. The
calendar and the exact quotient are the model's choice (log 16), and so is that no year is impossible (log 22). -/
def Obligations.NavTimestamp : Prop :=
  ∀ (p : List Byte) (r : NavPositionVelocityTime), decodeNav p = some r →
    (r.utc.nanosecond < 0 → r.timestamp = .refused .negativeNanosecond) ∧
    (0 ≤ r.utc.nanosecond → r.utc.dateExists = false → r.timestamp = .refused .impossibleDate) ∧
    (0 ≤ r.utc.nanosecond → r.utc.dateExists = true → ∃ u, r.timestamp = .formed u ∧
      u.year = r.utc.year.toNat ∧ u.month = r.utc.month.toNat ∧ u.day = r.utc.day.toNat ∧
      u.hour = r.utc.hour.toNat ∧ u.minute = r.utc.minute.toNat ∧ u.second = r.utc.second.toNat ∧
      ((u.milliseconds * 1000000 + u.nanosecondRest : Nat) : Int) = r.utc.nanosecond ∧ u.nanosecondRest < 1000000 ∧
      u.utcOffsetMinutes = 0) ∧
    (r.utc.dateExists = true → 1 ≤ r.utc.month.toNat ∧ r.utc.month.toNat ≤ 12 ∧ 1 ≤ r.utc.day.toNat ∧
      r.utc.day.toNat ≤ 31)

/-- 48_payload_decoder R170: whatever the rounding and the width of the format in which the product is formed (93 U9),
the single-precision degrees are the raw value times 1e-7 to within one part in 2^20, and zero for a zero raw value. The
five rounding rules are the model's choice (PRESUMED, log 16), and so is the rounding of both factors to the product's
format (log 23). -/
def Obligations.NavDegreesNearProduct : Prop :=
  ∀ (rounding : Config.Rounding) (extra : Nat) (raw : Int), -2147483648 ≤ raw → raw < 2147483648 →
    ∃ v : Rat, singleValue (degreesIn rounding extra raw) = some v ∧
      |v - (raw : Rat) / 10000000| * 1048576 ≤ |(raw : Rat) / 10000000| ∧ (0 ≤ v ↔ 0 ≤ raw)
end

