-- ==== Sys2Proof/Laws/State.lean ====
section
/-! SUPPORT. One lemma per field per update of the state, true by rfl, so that no proof unfolds a record update. -/

namespace Sys2Proof.Machine

variable (s : State)

/-! ### setTag -/

@[simp] theorem State.setTag_cfg (t : Tag) : (s.setTag t).cfg = s.cfg := rfl
@[simp] theorem State.setTag_tag (t : Tag) : (s.setTag t).tag = t := rfl
@[simp] theorem State.setTag_cls (t : Tag) : (s.setTag t).cls = s.cls := rfl
@[simp] theorem State.setTag_mid (t : Tag) : (s.setTag t).mid = s.mid := rfl
@[simp] theorem State.setTag_lenlo (t : Tag) : (s.setTag t).lenlo = s.lenlo := rfl
@[simp] theorem State.setTag_len (t : Tag) : (s.setTag t).len = s.len := rfl
@[simp] theorem State.setTag_off (t : Tag) : (s.setTag t).off = s.off := rfl
@[simp] theorem State.setTag_ck1 (t : Tag) : (s.setTag t).ck1 = s.ck1 := rfl
@[simp] theorem State.setTag_accA (t : Tag) : (s.setTag t).accA = s.accA := rfl
@[simp] theorem State.setTag_accB (t : Tag) : (s.setTag t).accB = s.accB := rfl
@[simp] theorem State.setTag_pbuf (t : Tag) : (s.setTag t).pbuf = s.pbuf := rfl
@[simp] theorem State.setTag_q (t : Tag) : (s.setTag t).q = s.q := rfl
@[simp] theorem State.setTag_draw (t : Tag) : (s.setTag t).draw = s.draw := rfl
@[simp] theorem State.setTag_script (t : Tag) : (s.setTag t).script = s.script := rfl
@[simp] theorem State.setTag_outs (t : Tag) : (s.setTag t).outs = s.outs := rfl

/-! ### accumulate -/

@[simp] theorem State.accumulate_cfg (x : Byte) : (s.accumulate x).cfg = s.cfg := rfl
@[simp] theorem State.accumulate_tag (x : Byte) : (s.accumulate x).tag = s.tag := rfl
@[simp] theorem State.accumulate_cls (x : Byte) : (s.accumulate x).cls = s.cls := rfl
@[simp] theorem State.accumulate_mid (x : Byte) : (s.accumulate x).mid = s.mid := rfl
@[simp] theorem State.accumulate_lenlo (x : Byte) : (s.accumulate x).lenlo = s.lenlo := rfl
@[simp] theorem State.accumulate_len (x : Byte) : (s.accumulate x).len = s.len := rfl
@[simp] theorem State.accumulate_off (x : Byte) : (s.accumulate x).off = s.off := rfl
@[simp] theorem State.accumulate_ck1 (x : Byte) : (s.accumulate x).ck1 = s.ck1 := rfl
@[simp] theorem State.accumulate_accA (x : Byte) : (s.accumulate x).accA = s.accA + x := rfl
@[simp] theorem State.accumulate_accB (x : Byte) : (s.accumulate x).accB = s.accB + (s.accA + x) := rfl
@[simp] theorem State.accumulate_pbuf (x : Byte) : (s.accumulate x).pbuf = s.pbuf := rfl
@[simp] theorem State.accumulate_q (x : Byte) : (s.accumulate x).q = s.q := rfl
@[simp] theorem State.accumulate_draw (x : Byte) : (s.accumulate x).draw = s.draw := rfl
@[simp] theorem State.accumulate_script (x : Byte) : (s.accumulate x).script = s.script := rfl
@[simp] theorem State.accumulate_outs (x : Byte) : (s.accumulate x).outs = s.outs := rfl

/-! ### clearSums -/

@[simp] theorem State.clearSums_cfg : s.clearSums.cfg = s.cfg := rfl
@[simp] theorem State.clearSums_tag : s.clearSums.tag = s.tag := rfl
@[simp] theorem State.clearSums_cls : s.clearSums.cls = s.cls := rfl
@[simp] theorem State.clearSums_mid : s.clearSums.mid = s.mid := rfl
@[simp] theorem State.clearSums_lenlo : s.clearSums.lenlo = s.lenlo := rfl
@[simp] theorem State.clearSums_len : s.clearSums.len = s.len := rfl
@[simp] theorem State.clearSums_off : s.clearSums.off = s.off := rfl
@[simp] theorem State.clearSums_ck1 : s.clearSums.ck1 = s.ck1 := rfl
@[simp] theorem State.clearSums_accA : s.clearSums.accA = 0 := rfl
@[simp] theorem State.clearSums_accB : s.clearSums.accB = 0 := rfl
@[simp] theorem State.clearSums_pbuf : s.clearSums.pbuf = s.pbuf := rfl
@[simp] theorem State.clearSums_q : s.clearSums.q = s.q := rfl
@[simp] theorem State.clearSums_draw : s.clearSums.draw = s.draw := rfl
@[simp] theorem State.clearSums_script : s.clearSums.script = s.script := rfl
@[simp] theorem State.clearSums_outs : s.clearSums.outs = s.outs := rfl

/-! ### discardScratch -/

@[simp] theorem State.discardScratch_cfg : s.discardScratch.cfg = s.cfg := rfl
@[simp] theorem State.discardScratch_tag : s.discardScratch.tag = s.tag := rfl
@[simp] theorem State.discardScratch_cls : s.discardScratch.cls = Config.freeByte .cls s.draw := rfl
@[simp] theorem State.discardScratch_mid : s.discardScratch.mid = Config.freeByte .mid s.draw := rfl
@[simp] theorem State.discardScratch_lenlo : s.discardScratch.lenlo = Config.freeByte .lenlo s.draw := rfl
@[simp] theorem State.discardScratch_len : s.discardScratch.len = Config.freeHalf .len s.draw := rfl
@[simp] theorem State.discardScratch_off : s.discardScratch.off = Config.freeHalf .off s.draw := rfl
@[simp] theorem State.discardScratch_ck1 : s.discardScratch.ck1 = Config.freeByte .ck1 s.draw := rfl
@[simp] theorem State.discardScratch_accA : s.discardScratch.accA = Config.freeByte .accA s.draw := rfl
@[simp] theorem State.discardScratch_accB : s.discardScratch.accB = Config.freeByte .accB s.draw := rfl
@[simp] theorem State.discardScratch_pbuf : s.discardScratch.pbuf = [] := rfl
@[simp] theorem State.discardScratch_q : s.discardScratch.q = s.q := rfl
@[simp] theorem State.discardScratch_draw : s.discardScratch.draw = s.draw + 1 := rfl
@[simp] theorem State.discardScratch_script : s.discardScratch.script = s.script := rfl
@[simp] theorem State.discardScratch_outs : s.discardScratch.outs = s.outs := rfl

/-! ### discardLenlo -/

@[simp] theorem State.discardLenlo_cfg : s.discardLenlo.cfg = s.cfg := rfl
@[simp] theorem State.discardLenlo_tag : s.discardLenlo.tag = s.tag := rfl
@[simp] theorem State.discardLenlo_cls : s.discardLenlo.cls = s.cls := rfl
@[simp] theorem State.discardLenlo_mid : s.discardLenlo.mid = s.mid := rfl
@[simp] theorem State.discardLenlo_lenlo : s.discardLenlo.lenlo = Config.freeByte .lenlo s.draw := rfl
@[simp] theorem State.discardLenlo_len : s.discardLenlo.len = s.len := rfl
@[simp] theorem State.discardLenlo_off : s.discardLenlo.off = s.off := rfl
@[simp] theorem State.discardLenlo_ck1 : s.discardLenlo.ck1 = s.ck1 := rfl
@[simp] theorem State.discardLenlo_accA : s.discardLenlo.accA = s.accA := rfl
@[simp] theorem State.discardLenlo_accB : s.discardLenlo.accB = s.accB := rfl
@[simp] theorem State.discardLenlo_pbuf : s.discardLenlo.pbuf = s.pbuf := rfl
@[simp] theorem State.discardLenlo_q : s.discardLenlo.q = s.q := rfl
@[simp] theorem State.discardLenlo_draw : s.discardLenlo.draw = s.draw + 1 := rfl
@[simp] theorem State.discardLenlo_script : s.discardLenlo.script = s.script := rfl
@[simp] theorem State.discardLenlo_outs : s.discardLenlo.outs = s.outs := rfl

/-! ### push -/

@[simp] theorem State.push_cfg (f : Frame) : (s.push f).cfg = s.cfg := rfl
@[simp] theorem State.push_tag (f : Frame) : (s.push f).tag = s.tag := rfl
@[simp] theorem State.push_cls (f : Frame) : (s.push f).cls = s.cls := rfl
@[simp] theorem State.push_mid (f : Frame) : (s.push f).mid = s.mid := rfl
@[simp] theorem State.push_lenlo (f : Frame) : (s.push f).lenlo = s.lenlo := rfl
@[simp] theorem State.push_len (f : Frame) : (s.push f).len = s.len := rfl
@[simp] theorem State.push_off (f : Frame) : (s.push f).off = s.off := rfl
@[simp] theorem State.push_ck1 (f : Frame) : (s.push f).ck1 = s.ck1 := rfl
@[simp] theorem State.push_accA (f : Frame) : (s.push f).accA = s.accA := rfl
@[simp] theorem State.push_accB (f : Frame) : (s.push f).accB = s.accB := rfl
@[simp] theorem State.push_pbuf (f : Frame) : (s.push f).pbuf = s.pbuf := rfl
@[simp] theorem State.push_q (f : Frame) : (s.push f).q = s.q ++ [f] := rfl
@[simp] theorem State.push_draw (f : Frame) : (s.push f).draw = s.draw := rfl
@[simp] theorem State.push_script (f : Frame) : (s.push f).script = s.script := rfl
@[simp] theorem State.push_outs (f : Frame) : (s.push f).outs = s.outs := rfl

/-! ### pop -/

@[simp] theorem State.pop_cfg : s.pop.cfg = s.cfg := rfl
@[simp] theorem State.pop_tag : s.pop.tag = s.tag := rfl
@[simp] theorem State.pop_cls : s.pop.cls = s.cls := rfl
@[simp] theorem State.pop_mid : s.pop.mid = s.mid := rfl
@[simp] theorem State.pop_lenlo : s.pop.lenlo = s.lenlo := rfl
@[simp] theorem State.pop_len : s.pop.len = s.len := rfl
@[simp] theorem State.pop_off : s.pop.off = s.off := rfl
@[simp] theorem State.pop_ck1 : s.pop.ck1 = s.ck1 := rfl
@[simp] theorem State.pop_accA : s.pop.accA = s.accA := rfl
@[simp] theorem State.pop_accB : s.pop.accB = s.accB := rfl
@[simp] theorem State.pop_pbuf : s.pop.pbuf = s.pbuf := rfl
@[simp] theorem State.pop_q : s.pop.q = s.q.tail := rfl
@[simp] theorem State.pop_draw : s.pop.draw = s.draw := rfl
@[simp] theorem State.pop_script : s.pop.script = s.script := rfl
@[simp] theorem State.pop_outs : s.pop.outs = s.outs := rfl

/-! ### retire -/

@[simp] theorem State.retire_cfg (o : Output) : (s.retire o).cfg = s.cfg := rfl
@[simp] theorem State.retire_tag (o : Output) : (s.retire o).tag = s.tag := rfl
@[simp] theorem State.retire_cls (o : Output) : (s.retire o).cls = s.cls := rfl
@[simp] theorem State.retire_mid (o : Output) : (s.retire o).mid = s.mid := rfl
@[simp] theorem State.retire_lenlo (o : Output) : (s.retire o).lenlo = s.lenlo := rfl
@[simp] theorem State.retire_len (o : Output) : (s.retire o).len = s.len := rfl
@[simp] theorem State.retire_off (o : Output) : (s.retire o).off = s.off := rfl
@[simp] theorem State.retire_ck1 (o : Output) : (s.retire o).ck1 = s.ck1 := rfl
@[simp] theorem State.retire_accA (o : Output) : (s.retire o).accA = s.accA := rfl
@[simp] theorem State.retire_accB (o : Output) : (s.retire o).accB = s.accB := rfl
@[simp] theorem State.retire_pbuf (o : Output) : (s.retire o).pbuf = s.pbuf := rfl
@[simp] theorem State.retire_q (o : Output) : (s.retire o).q = s.q := rfl
@[simp] theorem State.retire_draw (o : Output) : (s.retire o).draw = s.draw := rfl
@[simp] theorem State.retire_script (o : Output) : (s.retire o).script = s.script.tail := rfl
@[simp] theorem State.retire_outs (o : Output) : (s.retire o).outs = s.outs ++ [o] := rfl

/-! ### accept -/

@[simp] theorem State.accept_cfg (e : Bool) : (s.accept e).cfg = s.cfg := rfl
@[simp] theorem State.accept_tag (e : Bool) : (s.accept e).tag = s.tag := rfl
@[simp] theorem State.accept_cls (e : Bool) : (s.accept e).cls = s.cls := rfl
@[simp] theorem State.accept_mid (e : Bool) : (s.accept e).mid = s.mid := rfl
@[simp] theorem State.accept_lenlo (e : Bool) : (s.accept e).lenlo = s.lenlo := rfl
@[simp] theorem State.accept_len (e : Bool) : (s.accept e).len = s.len := rfl
@[simp] theorem State.accept_off (e : Bool) : (s.accept e).off = s.off := rfl
@[simp] theorem State.accept_ck1 (e : Bool) : (s.accept e).ck1 = s.ck1 := rfl
@[simp] theorem State.accept_accA (e : Bool) : (s.accept e).accA = s.accA := rfl
@[simp] theorem State.accept_accB (e : Bool) : (s.accept e).accB = s.accB := rfl
@[simp] theorem State.accept_pbuf (e : Bool) : (s.accept e).pbuf = s.pbuf := rfl
@[simp] theorem State.accept_q (e : Bool) : (s.accept e).q = s.q := rfl
@[simp] theorem State.accept_draw (e : Bool) : (s.accept e).draw = s.draw := rfl
@[simp] theorem State.accept_script (e : Bool) : (s.accept e).script = s.script.tail := rfl
@[simp] theorem State.accept_outs (e : Bool) : (s.accept e).outs = s.outs ++ [.accepted e] := rfl

/-! ### offer -/

@[simp] theorem State.offer_cfg (rs : List Request) : (s.offer rs).cfg = s.cfg := rfl
@[simp] theorem State.offer_tag (rs : List Request) : (s.offer rs).tag = s.tag := rfl
@[simp] theorem State.offer_cls (rs : List Request) : (s.offer rs).cls = s.cls := rfl
@[simp] theorem State.offer_mid (rs : List Request) : (s.offer rs).mid = s.mid := rfl
@[simp] theorem State.offer_lenlo (rs : List Request) : (s.offer rs).lenlo = s.lenlo := rfl
@[simp] theorem State.offer_len (rs : List Request) : (s.offer rs).len = s.len := rfl
@[simp] theorem State.offer_off (rs : List Request) : (s.offer rs).off = s.off := rfl
@[simp] theorem State.offer_ck1 (rs : List Request) : (s.offer rs).ck1 = s.ck1 := rfl
@[simp] theorem State.offer_accA (rs : List Request) : (s.offer rs).accA = s.accA := rfl
@[simp] theorem State.offer_accB (rs : List Request) : (s.offer rs).accB = s.accB := rfl
@[simp] theorem State.offer_pbuf (rs : List Request) : (s.offer rs).pbuf = s.pbuf := rfl
@[simp] theorem State.offer_q (rs : List Request) : (s.offer rs).q = s.q := rfl
@[simp] theorem State.offer_draw (rs : List Request) : (s.offer rs).draw = s.draw := rfl
@[simp] theorem State.offer_script (rs : List Request) : (s.offer rs).script = s.script ++ rs := rfl
@[simp] theorem State.offer_outs (rs : List Request) : (s.offer rs).outs = s.outs := rfl

/-! ### raise -/

@[simp] theorem State.raise_syncLoss : s.raise .syncLoss = s.setTag .awaitSyncA := rfl
@[simp] theorem State.raise_checksumMismatch : s.raise .checksumMismatch = s.discardScratch.setTag .awaitSyncA := rfl
@[simp] theorem State.raise_emptyDequeue : s.raise .emptyDequeue = s := rfl
@[simp] theorem State.raise_queueFullHold : s.raise .queueFullHold = s := rfl

/-! ### present -/

theorem State.present_of_not_held (h : s.held = false) : s.present = s := by simp [State.present, h]

/-- Presenting a request only rearranges the script. -/
theorem State.present_eq_with_script : ∃ rs, s.present = { s with script := rs } := by
  unfold State.present
  split
  · split
    · exact ⟨_, rfl⟩
    · exact ⟨s.script, rfl⟩
  · exact ⟨s.script, rfl⟩

end Sys2Proof.Machine
end

