-- ==== Sys2Proof/Laws/Memory.lean ====
section
/-! SUPPORT. PBUF: read after write, and the canonical form kept by every operation. -/

namespace Sys2Proof.Machine

@[simp] theorem Memory.read_nil (a : Nat) : Memory.read [] a = none := rfl

theorem Memory.read_cons (k : Nat) (v : Byte) (m : Memory) (a : Nat) :
    Memory.read ((k, v) :: m) a = if a = k then some v else Memory.read m a := rfl

/-- A write is read back. -/
@[simp] theorem Memory.read_write_same (m : Memory) (a : Nat) (b : Byte) : (m.write a b).read a = some b := by
  induction m with
  | nil => simp [Memory.write, Memory.read]
  | cons c m ih =>
    obtain ⟨k, v⟩ := c
    unfold Memory.write
    split
    · simp [Memory.read]
    · split
      · simp [Memory.read]
      · simp [Memory.read, *]

/-- A write leaves every other offset alone. -/
theorem Memory.read_write_other (m : Memory) {a i : Nat} (b : Byte) (h : i ≠ a) :
    (m.write a b).read i = m.read i := by
  induction m with
  | nil => simp [Memory.write, Memory.read, h]
  | cons c m ih =>
    obtain ⟨k, v⟩ := c
    unfold Memory.write
    split
    · simp [Memory.read, h]
    · split
      · next hk => subst hk; simp [Memory.read, h]
      · simp [Memory.read, ih]

theorem Memory.risingFrom_write {m : Memory} {lo a : Nat} (b : Byte) (hm : m.risingFrom lo = true) (hlo : lo ≤ a)
    (ha : a < maxLen) : (m.write a b).risingFrom lo = true := by
  induction m generalizing lo with
  | nil => simp [Memory.write, Memory.risingFrom, hlo, ha]
  | cons c m ih =>
    obtain ⟨k, v⟩ := c
    simp only [Memory.risingFrom, Bool.and_eq_true, decide_eq_true_eq] at hm
    obtain ⟨⟨h1, h2⟩, h3⟩ := hm
    unfold Memory.write
    split
    · next hak =>
      simp only [Memory.risingFrom, Bool.and_eq_true, decide_eq_true_eq]
      exact ⟨⟨hlo, ha⟩, ⟨by omega, h2⟩, h3⟩
    · split
      · next hak => subst hak; simp [Memory.risingFrom, hlo, ha, h3]
      · next h4 h5 =>
        simp only [Memory.risingFrom, Bool.and_eq_true, decide_eq_true_eq]
        exact ⟨⟨h1, h2⟩, ih h3 (by omega)⟩

/-- A write to an offset of PBUF keeps the canonical form. -/
theorem Memory.wf_write {m : Memory} {a : Nat} (b : Byte) (hm : m.wf = true) (ha : a < maxLen) :
    (m.write a b).wf = true := Memory.risingFrom_write b hm (Nat.zero_le a) ha

@[simp] theorem Memory.wf_nil : Memory.wf [] = true := rfl

theorem State.reset_pbuf_wf : State.reset.pbuf.wf = true := rfl

/-- A store to PBUF succeeds exactly at an offset that exists, and then changes PBUF alone. -/
theorem State.storePbuf_eq (s : State) (i : Nat) (b : Byte) :
    s.storePbuf i b = if i < maxLen then some { s with pbuf := s.pbuf.write i b } else none := rfl

theorem State.storePbuf_of_lt (s : State) {i : Nat} (b : Byte) (h : i < maxLen) :
    s.storePbuf i b = some { s with pbuf := s.pbuf.write i b } := by simp [State.storePbuf, h]

/-- A listed byte is what PBUF reads as. -/
theorem State.pbufByte_of_read {s : State} {i : Nat} {v : Byte} (h : s.pbuf.read i = some v) :
    s.pbufByte i = v := by simp [State.pbufByte, h]

@[simp] theorem State.length_pbufBytes (s : State) (n : Nat) : (s.pbufBytes n).length = n := by
  simp [State.pbufBytes]

theorem State.pbufBytes_succ (s : State) (n : Nat) :
    s.pbufBytes (n + 1) = s.pbufBytes n ++ [s.pbufByte n] := by
  simp [State.pbufBytes, List.range_succ]

/-- The first `n` bytes of two states with the same written bytes are the same. -/
theorem State.pbufBytes_congr {s t : State} {n : Nat} (hs : s.Filled n)
    (h : ∀ i, i < n → t.pbuf.read i = s.pbuf.read i) : t.pbufBytes n = s.pbufBytes n := by
  unfold State.pbufBytes
  apply List.map_congr_left
  intro i hi
  have hi' : i < n := by simpa using hi
  obtain ⟨v, hv⟩ := Option.isSome_iff_exists.mp (hs i hi')
  rw [State.pbufByte_of_read hv, State.pbufByte_of_read ((h i hi').trans hv)]

end Sys2Proof.Machine
end

