-- ==== Sys2Proof/Laws/Checksum.lean ====
section
/-! SUPPORT. The checksum function and its incremental form. -/

namespace Sys2Proof.Machine

@[simp] theorem ck_nil : ck [] = (0, 0) := rfl

/-- `ck(s ++ [x])` is `ck(s)` followed by one round (43_checksum R133). -/
theorem ck_append_one (s : List Byte) (x : Byte) : ck (s ++ [x]) = ckStep (ck s) x := by
  simp [ck, List.foldl_append]

/-- One `acc(x)` extends the bytes the sums are of by `x`. -/
theorem State.SumsOf.accumulate {s : State} {bytes : List Byte} (h : s.SumsOf bytes) (x : Byte) :
    (s.accumulate x).SumsOf (bytes ++ [x]) := by
  unfold State.SumsOf at *
  rw [ck_append_one, ← h]
  rfl

/-- The sums depend on the two accumulators only. -/
theorem State.SumsOf.congr {s t : State} {bytes : List Byte} (h : s.SumsOf bytes) (ha : t.accA = s.accA)
    (hb : t.accB = s.accB) : t.SumsOf bytes := by
  unfold State.SumsOf at *
  rw [ha, hb, h]

theorem covered_append (c i : Byte) (n : Half) (p : List Byte) (x : Byte) :
    covered c i n (p ++ [x]) = covered c i n p ++ [x] := rfl

/-- The length assembled from two bytes, as a number (30_encoding R79). -/
theorem toNat_assembleLength (hi lo : Byte) : (assembleLength hi lo).toNat = hi.toNat * 256 + lo.toNat := by
  have h : assembleLength hi lo = (hi ++ lo : BitVec (8 + 8)) := by
    unfold assembleLength
    apply BitVec.eq_of_getLsbD_eq
    intro i h
    simp only [BitVec.getLsbD_or, BitVec.getLsbD_setWidth, BitVec.getLsbD_shiftLeft, BitVec.getLsbD_append]
    by_cases h8 : i < 8
    · simp [h8]; omega
    · have := lo.getLsbD_of_ge i (by omega)
      simp [h8, this, h]
      omega
  rw [h, BitVec.toNat_append, Nat.shiftLeft_eq]
  rw [← Nat.shiftLeft_eq, ← Nat.shiftLeft_add_eq_or_of_lt lo.isLt, Nat.shiftLeft_eq]

@[simp] theorem lowByte_assembleLength (hi lo : Byte) : lowByte (assembleLength hi lo) = lo := by
  apply BitVec.eq_of_toNat_eq
  have := lo.isLt
  simp only [lowByte, BitVec.toNat_setWidth, toNat_assembleLength]
  omega

@[simp] theorem highByte_assembleLength (hi lo : Byte) : highByte (assembleLength hi lo) = hi := by
  apply BitVec.eq_of_toNat_eq
  have := lo.isLt
  have := hi.isLt
  simp only [highByte, BitVec.toNat_setWidth, BitVec.toNat_ushiftRight, toNat_assembleLength, Nat.shiftRight_eq_div_pow]
  omega

end Sys2Proof.Machine
end

