-- ==== Sys2Proof/Laws/Decode.lean ====
section
/-! SUPPORT. The fields of a dispatch word, the masks of the operation map applied to it, and that every word is of
some row. -/

namespace Sys2Proof

theorem getLsbD_mkWord (ev : BitVec 3) (tag : BitVec 4) (b : Byte) (i : Nat) :
    (mkWord ev tag b).getLsbD i =
      (decide (i < 15) && (if i < 8 then b.getLsbD i else if i < 12 then tag.getLsbD (i - 8) else ev.getLsbD (i - 12))) := by
  simp only [mkWord, BitVec.getLsbD_or, BitVec.getLsbD_shiftLeft, BitVec.getLsbD_setWidth]
  by_cases h15 : i < 15
  · by_cases h8 : i < 8
    · simp [h15, h8, show i < 12 by omega]
    · have hb : b.getLsbD i = false := b.getLsbD_of_ge i (by omega)
      by_cases h12 : i < 12
      · simp [h15, h8, h12, hb, show i - 8 < 15 by omega]
      · have ht : tag.getLsbD (i - 8) = false := tag.getLsbD_of_ge _ (by omega)
        simp [h15, h8, h12, hb, ht, show i - 12 < 15 by omega]
  · have hb : b.getLsbD i = false := b.getLsbD_of_ge i (by omega)
    simp [h15]

@[simp] theorem byteField_mkWord (ev : BitVec 3) (tag : BitVec 4) (b : Byte) : byteField (mkWord ev tag b) = b := by
  apply BitVec.eq_of_getLsbD_eq
  intro i h
  rw [byteField, BitVec.getLsbD_extractLsb', getLsbD_mkWord]
  simp [h, show i < 15 by omega]

@[simp] theorem tagField_mkWord (ev : BitVec 3) (tag : BitVec 4) (b : Byte) : tagField (mkWord ev tag b) = tag := by
  apply BitVec.eq_of_getLsbD_eq
  intro i h
  rw [tagField, BitVec.getLsbD_extractLsb', getLsbD_mkWord]
  simp [h, show 8 + i < 15 by omega, show 8 + i < 12 by omega]

@[simp] theorem evField_mkWord (ev : BitVec 3) (tag : BitVec 4) (b : Byte) : evField (mkWord ev tag b) = ev := by
  apply BitVec.eq_of_getLsbD_eq
  intro i h
  rw [evField, BitVec.getLsbD_extractLsb', getLsbD_mkWord]
  simp [h, show 12 + i < 15 by omega, show ¬ 12 + i < 8 by omega]

/-- A word is put together again from its fields. -/
theorem mkWord_fields (w : DispatchWord) : mkWord (evField w) (tagField w) (byteField w) = w := by
  apply BitVec.eq_of_getLsbD_eq
  intro i h
  rw [getLsbD_mkWord]
  simp only [byteField, tagField, evField, BitVec.getLsbD_extractLsb', h, decide_true, Bool.true_and]
  split
  · simp [*]
  · split
    · rw [show 8 + (i - 8) = i by omega]; simp [show i - 8 < 4 by omega]
    · rw [show 12 + (i - 12) = i by omega]; simp [show i - 12 < 3 by omega]

/-- The mask of the BYTE rows keeps event code and tag. -/
theorem mkWord_and_byteMask (ev : BitVec 3) (tag : BitVec 4) (b : Byte) :
    mkWord ev tag b &&& 0x7F00#15 = mkWord ev tag 0 := by
  apply BitVec.eq_of_getLsbD_eq
  intro i h
  have hm : ∀ j, j < 15 → (0x7F00#15).getLsbD j = decide (8 ≤ j) := by decide
  rw [BitVec.getLsbD_and, getLsbD_mkWord, getLsbD_mkWord, hm i h]
  by_cases h8 : i < 8
  · simp [h8]
  · simp [h8, show 8 ≤ i by omega]

/-- The mask of the HOST rows keeps the event code. -/
theorem mkWord_and_hostMask (ev : BitVec 3) (tag : BitVec 4) (b : Byte) :
    mkWord ev tag b &&& 0x7000#15 = mkWord ev 0 0 := by
  apply BitVec.eq_of_getLsbD_eq
  intro i h
  have hm : ∀ j, j < 15 → (0x7000#15).getLsbD j = decide (12 ≤ j) := by decide
  rw [BitVec.getLsbD_and, getLsbD_mkWord, getLsbD_mkWord, hm i h]
  by_cases h12 : 12 ≤ i
  · simp [h12, show ¬ i < 8 by omega, show ¬ i < 12 by omega]
  · by_cases h8 : i < 8
    · simp [h8, show ¬ 12 ≤ i by omega]
    · simp [h8, show ¬ 12 ≤ i by omega, show i < 12 by omega]

/-- The mask of the row RSVD.TAG. -/
theorem mkWord_and_reservedTagMask (ev : BitVec 3) (tag : BitVec 4) (b : Byte) :
    mkWord ev tag b &&& 0x7800#15 = mkWord ev (tag &&& 0x8) 0 := by
  have h1 : (0x7800#15) = 0x7F00#15 &&& 0x7800#15 := by decide
  rw [h1, ← BitVec.and_assoc, mkWord_and_byteMask]
  revert ev tag
  decide

/-- The mask of the row RSVD.EV. -/
theorem mkWord_and_reservedEventMask (ev : BitVec 3) (tag : BitVec 4) (b : Byte) :
    mkWord ev tag b &&& 0x4000#15 = mkWord (ev &&& 0x4) 0 0 := by
  have h1 : (0x4000#15) = 0x7000#15 &&& 0x4000#15 := by decide
  rw [h1, ← BitVec.and_assoc, mkWord_and_hostMask]
  revert ev
  decide

/-- The last arm of `decodeOp` is never taken: some row covers the word (30_encoding R87). -/
theorem decodeOp_covers (w : DispatchWord) : (operationMap.find? fun r => r.covers w).isSome = true := by
  rw [← mkWord_fields w, List.find?_isSome]
  generalize evField w = ev
  generalize tagField w = tag
  generalize byteField w = b
  have h : ∀ (ev : BitVec 3) (tag : BitVec 4),
      (mkWord ev tag 0 = 0x0000#15 ∨ mkWord ev tag 0 = 0x0100#15 ∨ mkWord ev tag 0 = 0x0200#15 ∨
        mkWord ev tag 0 = 0x0300#15 ∨ mkWord ev tag 0 = 0x0400#15 ∨ mkWord ev tag 0 = 0x0500#15 ∨
        mkWord ev tag 0 = 0x0600#15 ∨ mkWord ev tag 0 = 0x0700#15) ∨
      mkWord ev (tag &&& 0x8) 0 = 0x0800#15 ∨ mkWord ev 0 0 = 0x1000#15 ∨ mkWord ev 0 0 = 0x2000#15 ∨
      mkWord ev 0 0 = 0x3000#15 ∨ mkWord (ev &&& 0x4) 0 0 = 0x4000#15 := by decide
  have row : ∀ r ∈ operationMap, mkWord ev tag b &&& r.mask = r.pattern →
      ∃ r ∈ operationMap, r.covers (mkWord ev tag b) = true :=
    fun r hr hc => ⟨r, hr, by simp [OpRow.covers, hc]⟩
  rcases h ev tag with (h | h | h | h | h | h | h | h) | h | h | h | h | h
  · exact row ⟨.syncaMiss, 0x0000, 0x7F00⟩ (by decide) ((mkWord_and_byteMask ev tag b).trans h)
  · exact row ⟨.syncbMiss, 0x0100, 0x7F00⟩ (by decide) ((mkWord_and_byteMask ev tag b).trans h)
  · exact row ⟨.cls, 0x0200, 0x7F00⟩ (by decide) ((mkWord_and_byteMask ev tag b).trans h)
  · exact row ⟨.msgId, 0x0300, 0x7F00⟩ (by decide) ((mkWord_and_byteMask ev tag b).trans h)
  · exact row ⟨.lenlo, 0x0400, 0x7F00⟩ (by decide) ((mkWord_and_byteMask ev tag b).trans h)
  · exact row ⟨.lenhi, 0x0500, 0x7F00⟩ (by decide) ((mkWord_and_byteMask ev tag b).trans h)
  · exact row ⟨.payload, 0x0600, 0x7F00⟩ (by decide) ((mkWord_and_byteMask ev tag b).trans h)
  · exact row ⟨.cka, 0x0700, 0x7F00⟩ (by decide) ((mkWord_and_byteMask ev tag b).trans h)
  · exact row ⟨.rsvdTag, 0x0800, 0x7800⟩ (by decide) ((mkWord_and_reservedTagMask ev tag b).trans h)
  · exact row ⟨.take, 0x1000, 0x7000⟩ (by decide) ((mkWord_and_hostMask ev tag b).trans h)
  · exact row ⟨.rst, 0x2000, 0x7000⟩ (by decide) ((mkWord_and_hostMask ev tag b).trans h)
  · exact row ⟨.hasPending, 0x3000, 0x7000⟩ (by decide) ((mkWord_and_hostMask ev tag b).trans h)
  · exact row ⟨.rsvdEv, 0x4000, 0x4000⟩ (by decide) ((mkWord_and_reservedEventMask ev tag b).trans h)

end Sys2Proof
end

