-- ==== Sys2Proof/Laws/Degrees.lean ====
section
/-! SUPPORT. What the rounding of the payload decoder does (48_payload_decoder R170), said once: a rounded quotient lies
within one of the exact one, and a rounded magnitude has its `p` significand bits. -/

namespace Sys2Proof.Machine

/-- A rounded quotient is the whole part or one more, and the whole part itself when the division is exact. -/
theorem roundQuotient_bounds (r : Config.Rounding) (neg : Bool) (n d : Nat) :
    n / d ≤ roundQuotient r neg n d ∧ roundQuotient r neg n d ≤ n / d + 1 := by
  unfold roundQuotient
  split <;> omega

theorem roundQuotient_of_exact (r : Config.Rounding) (neg : Bool) {n d : Nat} (hd : 0 < d) (h : n % d = 0) :
    roundQuotient r neg n d = n / d := by
  cases r <;> simp [roundQuotient, roundsAway, h] <;> omega

/-- The error of a rounded quotient is less than the divisor. -/
theorem roundQuotient_error (r : Config.Rounding) (neg : Bool) {n d : Nat} (hd : 0 < d) :
    roundQuotient r neg n d * d < n + d ∧ n < roundQuotient r neg n d * d + d := by
  have hdiv : d * (n / d) + n % d = n := Nat.div_add_mod n d
  have hmod : n % d < d := Nat.mod_lt n hd
  have hcomm : n / d * d = d * (n / d) := Nat.mul_comm _ _
  by_cases h : n % d = 0
  · rw [roundQuotient_of_exact r neg hd h]
    omega
  · have hb := roundQuotient_bounds r neg n d
    have hcases : roundQuotient r neg n d = n / d ∨ roundQuotient r neg n d = n / d + 1 := by omega
    rcases hcases with hq | hq
    · rw [hq]
      omega
    · rw [hq, Nat.add_mul]
      omega

/-- Scaling by one more power of two halves the quotient. -/
theorem scaled_succ (n d : Nat) (e : Int) :
    (scaledNum n (e + 1) = scaledNum n e ∧ scaledDen d (e + 1) = 2 * scaledDen d e) ∨
      (2 * scaledNum n (e + 1) = scaledNum n e ∧ scaledDen d (e + 1) = scaledDen d e) := by
  unfold scaledNum scaledDen
  rcases lt_or_ge e 0 with he | he
  · right
    rw [show (-e).toNat = (-(e + 1)).toNat + 1 by omega, show (e + 1).toNat = e.toNat by omega, Nat.pow_succ]
    exact ⟨by ring, rfl⟩
  · left
    rw [show (-(e + 1)).toNat = (-e).toNat by omega, show (e + 1).toNat = e.toNat + 1 by omega, Nat.pow_succ]
    exact ⟨rfl, by ring⟩

/-- The exponent puts the quotient between `2 ^ (p - 1)` and `2 ^ p`. -/
theorem exponentFor_spec (p : Nat) {n d : Nat} (hn : 0 < n) (hd : 0 < d) :
    2 ^ p * scaledDen d (exponentFor p n d) ≤ 2 * scaledNum n (exponentFor p n d) ∧
      scaledNum n (exponentFor p n d) < 2 ^ p * scaledDen d (exponentFor p n d) := by
  have hn1 : 2 ^ Nat.log2 n ≤ n := Nat.log2_self_le (by omega)
  have hn2 : n < 2 ^ (Nat.log2 n + 1) := Nat.lt_log2_self
  have hd1 : 2 ^ Nat.log2 d ≤ d := Nat.log2_self_le (by omega)
  have hd2 : d < 2 ^ (Nat.log2 d + 1) := Nat.lt_log2_self
  have key : ∀ e : Int, e = Nat.log2 n - Nat.log2 d - p →
      2 ^ p * scaledDen d e ≤ 2 * scaledNum n e ∧ scaledNum n e < 2 * (2 ^ p * scaledDen d e) := by
    generalize Nat.log2 n = a at *
    generalize Nat.log2 d = b at *
    intro e he
    unfold scaledNum scaledDen
    rcases lt_or_ge e 0 with hneg | hpos
    · obtain ⟨k, hk⟩ : ∃ k : Nat, (-e).toNat = k := ⟨_, rfl⟩
      have hsum : b + p = a + k := by omega
      rw [show e.toNat = 0 by omega, hk, Nat.pow_zero, Nat.mul_one]
      have h1 : 2 ^ p * d < 2 ^ p * 2 ^ (b + 1) := Nat.mul_lt_mul_of_pos_left hd2 (by positivity)
      have h2 : 2 ^ p * 2 ^ (b + 1) = 2 * (2 ^ a * 2 ^ k) := by
        rw [← Nat.pow_add, ← Nat.pow_add, ← hsum, show p + (b + 1) = (b + p) + 1 by omega, Nat.pow_succ, Nat.mul_comm]
      have h3 : 2 ^ a * 2 ^ k ≤ n * 2 ^ k := Nat.mul_le_mul_right _ hn1
      have h4 : n * 2 ^ k < 2 ^ (a + 1) * 2 ^ k := Nat.mul_lt_mul_of_pos_right hn2 (by positivity)
      have h5 : 2 ^ (a + 1) * 2 ^ k = 2 * (2 ^ p * 2 ^ b) := by
        rw [← Nat.pow_add, ← Nat.pow_add, show a + 1 + k = (p + b) + 1 by omega, Nat.pow_succ, Nat.mul_comm]
      have h6 : 2 ^ p * 2 ^ b ≤ 2 ^ p * d := Nat.mul_le_mul_left _ hd1
      omega
    · obtain ⟨k, hk⟩ : ∃ k : Nat, e.toNat = k := ⟨_, rfl⟩
      have hsum : a = b + p + k := by omega
      rw [show (-e).toNat = 0 by omega, hk, Nat.pow_zero, Nat.mul_one]
      have h1 : 2 ^ p * (d * 2 ^ k) < 2 ^ p * (2 ^ (b + 1) * 2 ^ k) :=
        Nat.mul_lt_mul_of_pos_left (Nat.mul_lt_mul_of_pos_right hd2 (by positivity)) (by positivity)
      have h2 : 2 ^ p * (2 ^ (b + 1) * 2 ^ k) = 2 * 2 ^ a := by
        rw [← Nat.pow_add, ← Nat.pow_add, show p + (b + 1 + k) = a + 1 by omega, Nat.pow_succ, Nat.mul_comm]
      have h3 : 2 ^ (a + 1) = 2 * (2 ^ p * (2 ^ b * 2 ^ k)) := by
        rw [← Nat.pow_add, ← Nat.pow_add, show p + (b + k) = a by omega, Nat.pow_succ, Nat.mul_comm]
      have h4 : 2 ^ p * (2 ^ b * 2 ^ k) ≤ 2 ^ p * (d * 2 ^ k) :=
        Nat.mul_le_mul_left _ (Nat.mul_le_mul_right _ hd1)
      omega
  obtain ⟨hlow, hhigh⟩ := key _ rfl
  unfold exponentFor
  dsimp only
  split
  · rename_i hge
    rcases scaled_succ n d (Nat.log2 n - Nat.log2 d - p) with ⟨h1, h2⟩ | ⟨h1, h2⟩
    · rw [h1, h2, Nat.mul_left_comm]
      omega
    · rw [h2]
      omega
  · omega

/-- The significand of a rounded magnitude has `p` bits, or is `2 ^ p`. -/
theorem roundTo_significand (r : Config.Rounding) (p : Nat) (neg : Bool) {n d : Nat} (hn : 0 < n) (hd : 0 < d) :
    2 ^ p ≤ 2 * (roundTo r p neg n d).significand + 1 ∧ (roundTo r p neg n d).significand ≤ 2 ^ p := by
  obtain ⟨hlow, hhigh⟩ := exponentFor_spec p hn hd
  have hD : 0 < scaledDen d (exponentFor p n d) := by unfold scaledDen; positivity
  have hsig : (roundTo r p neg n d).significand =
      roundQuotient r neg (scaledNum n (exponentFor p n d)) (scaledDen d (exponentFor p n d)) := by
    simp [roundTo, show n ≠ 0 by omega]
  rw [hsig]
  generalize scaledNum n (exponentFor p n d) = N at *
  generalize scaledDen d (exponentFor p n d) = D at *
  have hb := roundQuotient_bounds r neg N D
  have hq : N / D < 2 ^ p := (Nat.div_lt_iff_lt_mul hD).mpr hhigh
  have hl : 2 ^ p / 2 ≤ N / D := by
    rw [Nat.le_div_iff_mul_le hD]
    have : 2 ^ p / 2 * D * 2 ≤ 2 ^ p * D := by
      rw [Nat.mul_right_comm]
      exact Nat.mul_le_mul_right _ (Nat.div_mul_le_self _ _)
    omega
  omega

end Sys2Proof.Machine
end

