-- ==== Sys2Proof/Laws/Exec.lean ====
section
/-! SUPPORT. What each meaning can do, said once: the forms of PAYLOAD, CKB and TAKE, which operations stop, what no
operation writes, and which request a step performs. -/

namespace Sys2Proof.Machine

/-! ## The forms of a meaning -/

theorem execPayload_of_lt {s : State} (b : Byte) (h : s.off.toNat < maxLen) :
    execPayload b s = .next ((((({ s with pbuf := s.pbuf.write s.off.toNat b, off := s.off + 1 } : State).accumulate
      b).setTag (if s.off + 1 = s.len then .awaitChecksumA else .awaitPayload)).accept false)) := by
  simp [execPayload, State.storePbuf_of_lt s b h]

theorem execPayload_of_not_lt {s : State} (b : Byte) (h : ¬ s.off.toNat < maxLen) :
    execPayload b s = .fault .pbufOffsetAbsent := by
  simp [execPayload, State.storePbuf_eq, h]

theorem execCkb_of_held {s : State} (b : Byte) (h : s.held = true) : execCkb b s = .next s := by
  simp [execCkb, h]

theorem execCkb_of_match {s : State} {b : Byte} (h : s.held = false) (hc : s.checksumMatches b = true) :
    execCkb b s = .next ((((s.push s.candidate).discardScratch).setTag .awaitSyncA).accept false) := by
  simp [execCkb, h, hc]

theorem execCkb_of_mismatch {s : State} {b : Byte} (h : s.held = false) (hc : s.checksumMatches b = false) :
    execCkb b s = .next ((s.discardScratch.setTag .awaitSyncA).accept true) := by
  simp [execCkb, h, hc]

theorem execTake_of_nil {s : State} (h : s.q = []) : execTake s = .next (s.retire (.taken none)) := by
  simp [execTake, h]

theorem execTake_of_cons {s : State} {f : Frame} {fs : List Frame} (h : s.q = f :: fs) :
    execTake s = .next (s.pop.retire (.taken (some f))) := by
  simp [execTake, h]

/-! ## The hold -/

theorem State.held_iff (s : State) :
    s.held = true ↔ s.tag = .awaitChecksumB ∧ capReached s.cfg.qcap s.q.length = true := by
  simp [State.held]

theorem capReached_iff (c : QCap) (k : Nat) : capReached c k = true ↔ ∃ n h, c = .slots n h ∧ n ≤ k := by
  cases c with
  | inf => simp [capReached]
  | slots n h => simp [capReached, h]

theorem State.held_iff_full (s : State) : s.held = true ↔ s.tag = .awaitChecksumB ∧ s.Full := by
  rw [State.held_iff, capReached_iff, State.Full]

theorem State.not_held_of_hasRoom {s : State} (h : s.HasRoom) : s.held = false := by
  rw [Bool.eq_false_iff]
  intro hh
  obtain ⟨-, n, hn, hq, hle⟩ := (State.held_iff_full s).mp hh
  exact absurd (h n hn hq) (by omega)

theorem State.not_held_of_tag {s : State} (h : s.tag ≠ .awaitChecksumB) : s.held = false := by
  rw [Bool.eq_false_iff]
  intro hh
  exact h ((State.held_iff s).mp hh).1

theorem State.checksumMatches_iff (s : State) (b : Byte) :
    s.checksumMatches b = true ↔ s.ck1 = s.accA ∧ b = s.accB := by
  simp [State.checksumMatches]

/-! ## What stops, and what no operation writes -/

/-- Only a PAYLOAD store past PBUF faults. -/
theorem exec_fault {i : Instr} {s : State} {r : Fault} (h : exec i s = .fault r) :
    ∃ b, i = .payload b ∧ ¬ s.off.toNat < maxLen := by
  cases i with
  | payload b =>
    refine ⟨b, rfl, fun hlt => ?_⟩
    rw [exec, execPayload_of_lt b hlt] at h
    cases h
  | ckb b =>
    simp only [exec, execCkb] at h
    split at h
    · cases h
    · split at h <;> cases h
  | take =>
    simp only [exec, execTake] at h
    split at h <;> cases h
  | _ => cases h

/-- Only the event codes that do not exist are refused. -/
theorem exec_refused {i : Instr} {s : State} {r : Refusal} (h : exec i s = .refused r) :
    ∃ code, i = .rsvdEv code := by
  cases i with
  | rsvdEv code => exact ⟨code, rfl⟩
  | payload b =>
    simp only [exec, execPayload] at h
    split at h <;> cases h
  | ckb b =>
    simp only [exec, execCkb] at h
    split at h
    · cases h
    · split at h <;> cases h
  | take =>
    simp only [exec, execTake] at h
    split at h <;> cases h
  | _ => cases h

/-- What an operation does to the fields around the block: the parameters stay, the request it performed leaves the
script and one answer is added; or, for a CKB on hold, nothing changes at all. -/
theorem exec_frame {i : Instr} {s t : State} (h : exec i s = .next t) :
    (t.cfg = s.cfg ∧ t.script = s.script.tail ∧ ∃ o, t.outs = s.outs ++ [o]) ∨
      (t = s ∧ s.held = true ∧ ∃ b, i = .ckb b) := by
  cases i with
  | payload b =>
    by_cases hlt : s.off.toNat < maxLen
    · rw [exec, execPayload_of_lt b hlt] at h
      cases h
      exact .inl ⟨rfl, rfl, _, rfl⟩
    · rw [exec, execPayload_of_not_lt b hlt] at h
      cases h
  | ckb b =>
    cases hh : s.held with
    | true =>
      rw [exec, execCkb_of_held b hh] at h
      cases h
      exact .inr ⟨rfl, rfl, b, rfl⟩
    | false =>
      cases hc : s.checksumMatches b with
      | true =>
        rw [exec, execCkb_of_match hh hc] at h
        cases h
        exact .inl ⟨rfl, rfl, _, rfl⟩
      | false =>
        rw [exec, execCkb_of_mismatch hh hc] at h
        cases h
        exact .inl ⟨rfl, rfl, _, rfl⟩
  | take =>
    cases hq : s.q with
    | nil =>
      rw [exec, execTake_of_nil hq] at h
      cases h
      exact .inl ⟨rfl, rfl, _, rfl⟩
    | cons f fs =>
      rw [exec, execTake_of_cons hq] at h
      cases h
      exact .inl ⟨rfl, rfl, _, rfl⟩
  | rsvdEv code => cases h
  | _ => cases h; exact .inl ⟨rfl, rfl, _, rfl⟩

/-! ## Which request a step performs -/

theorem nextHostRequest_inputs (bytes : List Byte) : nextHostRequest (inputs bytes) = none := by
  induction bytes with
  | nil => rfl
  | cons b bytes ih =>
    change (nextHostRequest (inputs bytes)).map _ = none
    rw [ih]
    rfl

theorem nextHostRequest_append (bytes : List Byte) (rs : List Request) :
    nextHostRequest (inputs bytes ++ rs) = (nextHostRequest rs).map fun p => (p.1, inputs bytes ++ p.2) := by
  induction bytes with
  | nil => simp [inputs]
  | cons b bytes ih =>
    change (nextHostRequest (inputs bytes ++ rs)).map _ = _
    rw [ih, Option.map_map]
    rfl

/-- A step that is not on hold performs the first request. -/
theorem step_of_not_held {s : State} {r : Request} {rest : List Request} (h : s.held = false)
    (hs : s.script = r :: rest) : step s = exec (decodeWord (dispatchWord r s.tag)) s := by
  simp [step, State.present_of_not_held s h, hs]

/-- With nothing offered a step changes nothing. -/
theorem step_of_empty {s : State} (hs : s.script = []) : step s = .next s := by
  have hp : s.present = s := by
    unfold State.present
    split
    · simp [hs, nextHostRequest]
    · rfl
  simp [step, hp, hs]

/-- The requests are the same ones, in whatever order `present` puts them. -/
theorem nextHostRequest_length {rs rest : List Request} {r : Request} (h : nextHostRequest rs = some (r, rest)) :
    rest.length + 1 = rs.length := by
  induction rs generalizing r rest with
  | nil => cases h
  | cons x xs ih =>
    by_cases hx : ∃ b, x = .event (.inp b)
    · obtain ⟨b, rfl⟩ := hx
      obtain ⟨⟨r', rest'⟩, hn, he⟩ := Option.map_eq_some_iff.mp h
      cases he
      simp [← ih hn]
    · have he : nextHostRequest (x :: xs) = some (x, xs) := by
        cases x with
        | event e =>
          cases e with
          | inp b => exact absurd ⟨b, rfl⟩ hx
          | _ => rfl
        | _ => rfl
      cases he.symm.trans h
      rfl

theorem State.present_script_length (s : State) : s.present.script.length = s.script.length := by
  unfold State.present
  split
  · split
    · exact nextHostRequest_length ‹_›
    · rfl
  · rfl

/-- What a step that answers a next state can do: nothing, with no request offered; nothing but put the request that acts
next first, on hold; or perform exactly one request and give one answer. -/
theorem step_next_cases {s t : State} (h : step s = .next t) :
    (s.script = [] ∧ t = s) ∨ (s.present.held = true ∧ t = s.present) ∨
      (t.cfg = s.cfg ∧ t.script.length + 1 = s.script.length ∧ ∃ o, t.outs = s.outs ++ [o]) := by
  by_cases hs : s.script = []
  · rw [step_of_empty hs] at h
    cases h
    exact .inl ⟨hs, rfl⟩
  · obtain ⟨x, xs, hp⟩ : ∃ x xs, s.present.script = x :: xs := by
      rcases hl : s.present.script with _ | ⟨x, xs⟩
      · have := s.present_script_length
        rw [hl] at this
        exact absurd (List.length_eq_zero_iff.mp this.symm) hs
      · exact ⟨x, xs, rfl⟩
    rw [step, hp] at h
    obtain ⟨rs, hrs⟩ := s.present_eq_with_script
    rcases exec_frame h with ⟨hcfg, hscript, o, houts⟩ | ⟨rfl, hheld, -⟩
    · refine .inr (.inr ⟨?_, ?_, o, ?_⟩)
      · rw [hcfg, hrs]
      · rw [hscript, ← s.present_script_length, hp]
        rfl
      · rw [houts, hrs]
    · exact .inr (.inl ⟨hheld, rfl⟩)

/-! ## Runs -/

@[simp] theorem andThen_next (t : State) (f : State → Host.Outcome State Fault Refusal) : andThen (.next t) f = f t := rfl

@[simp] theorem andThen_fault (r : Fault) (f : State → Host.Outcome State Fault Refusal) :
    andThen (.fault r) f = .fault r := rfl

@[simp] theorem andThen_refused (r : Refusal) (f : State → Host.Outcome State Fault Refusal) :
    andThen (.refused r) f = .refused r := rfl

/-- What a next state of two parts says of the first. -/
theorem andThen_eq_next {o : Host.Outcome State Fault Refusal} {f : State → Host.Outcome State Fault Refusal} {u : State}
    (h : andThen o f = .next u) : ∃ t, o = .next t ∧ f t = .next u := by
  cases o with
  | next t => exact ⟨t, rfl, h⟩
  | fault r => cases h
  | refused r => cases h

theorem run_succ_of_next {s t : State} (n : Nat) (h : step s = .next t) : run (n + 1) s = run n t := by
  simp [run, h]

/-- A run of `m + n` steps is a run of `m` and then one of `n`. -/
theorem run_add_of_next {s t : State} (m n : Nat) (h : run m s = .next t) : run (m + n) s = run n t := by
  induction m generalizing s with
  | zero =>
    cases h
    rw [Nat.zero_add]
  | succ m ih =>
    rw [Nat.add_right_comm]
    cases hs : step s with
    | next u =>
      rw [run_succ_of_next _ hs]
      exact ih ((run_succ_of_next m hs).symm.trans h)
    | fault r => rw [run, hs] at h; cases h
    | refused r => rw [run, hs] at h; cases h

/-- From a state with no request offered, an INGEST takes one step for every byte. -/
theorem ingest_of_idle {s : State} (bytes : List Byte) (hs : s.script = []) :
    ingest bytes s = run bytes.length { s with script := inputs bytes } := by
  cases bytes with
  | nil => simp [ingest, run, inputs, ← hs]
  | cons b bytes => simp [ingest, settle, State.offer, hs, inputs]

/-- The model's run is the host's. -/
theorem run_eq_core_run (n : Nat) (s : State) : run n s = Host.Core.run core n s := by
  induction n generalizing s with
  | zero => rfl
  | succ n ih =>
    cases h : step s with
    | next t =>
      have hc : core.step s = .next t := h
      simpa only [run, Host.Core.run, h, hc, andThen_next] using ih t
    | fault r =>
      have hc : core.step s = .fault r := h
      simp only [run, Host.Core.run, h, hc]
      rfl
    | refused r =>
      have hc : core.step s = .refused r := h
      simp only [run, Host.Core.run, h, hc]
      rfl

end Sys2Proof.Machine
end

