-- ==== Sys2Proof/Laws/PerInstr.lean ====
section
/-! SUPPORT. Statements made per instruction. Family `RowOfMap`: the encoder's word of a well-formed operation is
covered by the operation's own row of the map (30_encoding R82). -/

namespace Sys2Proof.Laws.RowOfMap

/-- The row of an operation. -/
def rowOf : Instr → OpRow
  | .syncaHit => ⟨.syncaHit, 0x00B5, 0x7FFF⟩
  | .syncaMiss _ => ⟨.syncaMiss, 0x0000, 0x7F00⟩
  | .syncbHit => ⟨.syncbHit, 0x0162, 0x7FFF⟩
  | .syncbMiss _ => ⟨.syncbMiss, 0x0100, 0x7F00⟩
  | .cls _ => ⟨.cls, 0x0200, 0x7F00⟩
  | .msgId _ => ⟨.msgId, 0x0300, 0x7F00⟩
  | .lenlo _ => ⟨.lenlo, 0x0400, 0x7F00⟩
  | .lenhi _ => ⟨.lenhi, 0x0500, 0x7F00⟩
  | .payload _ => ⟨.payload, 0x0600, 0x7F00⟩
  | .cka _ => ⟨.cka, 0x0700, 0x7F00⟩
  | .ckb _ => ⟨.ckb, 0x0800, 0x7F00⟩
  | .rsvdTag _ _ => ⟨.rsvdTag, 0x0800, 0x7800⟩
  | .take => ⟨.take, 0x1000, 0x7000⟩
  | .rst => ⟨.rst, 0x2000, 0x7000⟩
  | .hasPending => ⟨.hasPending, 0x3000, 0x7000⟩
  | .peek => ⟨.peek, 0x4000, 0x7000⟩
  | .rsvdEv _ => ⟨.rsvdEv, 0x4000, 0x4000⟩

/-- The word of the operation is of its row. -/
def Statement (i : Instr) : Prop := i.wellFormed = true → (rowOf i).covers (encodeWord i) = true

/-- A word whose fixed bits are those of its row. -/
theorem covers_of {r : OpRow} {w : DispatchWord} (h : w &&& r.mask = r.pattern) : r.covers w = true := by
  simp [OpRow.covers, h]

theorem syncaHit : Statement .syncaHit := fun _ => by decide

theorem syncaMiss (b : Byte) : Statement (.syncaMiss b) :=
  fun _ => covers_of ((mkWord_and_byteMask 0 0 b).trans rfl)

theorem syncbHit : Statement .syncbHit := fun _ => by decide

theorem syncbMiss (b : Byte) : Statement (.syncbMiss b) :=
  fun _ => covers_of ((mkWord_and_byteMask 0 1 b).trans rfl)

theorem cls (b : Byte) : Statement (.cls b) := fun _ => covers_of ((mkWord_and_byteMask 0 2 b).trans rfl)

theorem msgId (b : Byte) : Statement (.msgId b) := fun _ => covers_of ((mkWord_and_byteMask 0 3 b).trans rfl)

theorem lenlo (b : Byte) : Statement (.lenlo b) := fun _ => covers_of ((mkWord_and_byteMask 0 4 b).trans rfl)

theorem lenhi (b : Byte) : Statement (.lenhi b) := fun _ => covers_of ((mkWord_and_byteMask 0 5 b).trans rfl)

theorem payload (b : Byte) : Statement (.payload b) :=
  fun _ => covers_of ((mkWord_and_byteMask 0 6 b).trans rfl)

theorem cka (b : Byte) : Statement (.cka b) := fun _ => covers_of ((mkWord_and_byteMask 0 7 b).trans rfl)

theorem ckb (b : Byte) : Statement (.ckb b) := fun _ => covers_of ((mkWord_and_byteMask 0 8 b).trans rfl)

theorem rsvdTag (code : Fin 7) (b : Byte) : Statement (.rsvdTag code b) :=
  fun _ => by
    have h : ∀ code : Fin 7, mkWord 0 (BitVec.ofNat 4 (9 + code.val) &&& 0x8) 0 = 0x0800#15 := by decide
    exact covers_of ((mkWord_and_reservedTagMask 0 _ b).trans (h code))

theorem take : Statement .take := fun _ => by decide

theorem rst : Statement .rst := fun _ => by decide

theorem hasPending : Statement .hasPending := fun _ => by decide

theorem peek : Statement .peek := fun _ => by decide

theorem rsvdEv (code : Fin 3) : Statement (.rsvdEv code) := fun _ => by revert code; decide

end Sys2Proof.Laws.RowOfMap
end

