-- ==== Sys2Proof/Tests/Slice0.lean ====
section
/-! SUPPORT. Tests. Expected results are those of spec/95_test_vectors.md (its vector is named), of the examples in the
rules, or written out by hand from the encodings of 30_encoding R82. -/

namespace Sys2Proof.Tests

open Sys2Proof.Machine

/-! ## Well-formedness: each check refuses an ill-formed term -/

theorem test_wellFormed_refuses_syncaMiss_B5 : (Instr.syncaMiss 0xB5).wellFormed = false := by decide

theorem test_wellFormed_refuses_syncbMiss_62 : (Instr.syncbMiss 0x62).wellFormed = false := by decide

theorem test_wellFormed_accepts_others : (Instr.syncaMiss 0x62).wellFormed = true ∧
    (Instr.syncbMiss 0xB5).wellFormed = true := by decide

/-! ## Decoding: words written out from the columns ev, tag, b of 30_encoding R82 -/

theorem test_decode_syncaHit : decodeWord 0b000_0000_10110101#15 = .syncaHit := by decide

theorem test_decode_syncaMiss : decodeWord 0b000_0000_10110100#15 = .syncaMiss 0xB4 := by decide

theorem test_decode_syncbHit : decodeWord 0b000_0001_01100010#15 = .syncbHit := by decide

theorem test_decode_syncbMiss : decodeWord 0b000_0001_01100011#15 = .syncbMiss 0x63 := by decide

theorem test_decode_cls : decodeWord 0b000_0010_00001010#15 = .cls 0x0A := by decide

theorem test_decode_msgId : decodeWord 0b000_0011_00000100#15 = .msgId 0x04 := by decide

theorem test_decode_lenlo : decodeWord 0b000_0100_00000010#15 = .lenlo 0x02 := by decide

theorem test_decode_lenhi : decodeWord 0b000_0101_00000001#15 = .lenhi 0x01 := by decide

theorem test_decode_payload : decodeWord 0b000_0110_11111111#15 = .payload 0xFF := by decide

theorem test_decode_cka : decodeWord 0b000_0111_00001110#15 = .cka 0x0E := by decide

theorem test_decode_ckb : decodeWord 0b000_1000_00110100#15 = .ckb 0x34 := by decide

theorem test_decode_rsvdTag_first : decodeWord 0b000_1001_00000000#15 = .rsvdTag 0 0 := by decide

theorem test_decode_rsvdTag_last : decodeWord 0b000_1111_10110101#15 = .rsvdTag 6 0xB5 := by decide

theorem test_decode_take : decodeWord 0b001_1000_00110100#15 = .take := by decide

theorem test_decode_rst : decodeWord 0b010_0000_00000000#15 = .rst := by decide

theorem test_decode_hasPending : decodeWord 0b011_1111_11111111#15 = .hasPending := by decide

theorem test_decode_peek : decodeWord 0b100_0000_00000000#15 = .peek := by decide

theorem test_decode_rsvdEv_first : decodeWord 0b101_0000_00000000#15 = .rsvdEv 0 := by decide

theorem test_decode_rsvdEv_last : decodeWord 0b111_0000_00000000#15 = .rsvdEv 2 := by decide

theorem test_decode_bytes : decode [0x62, 0x01, 0xAA] = .ok (.syncbHit, [0xAA]) := by rfl

theorem test_decode_rejects_bit15 : decode [0x62, 0x81] = .error .bit15Set := by rfl

theorem test_decode_rejects_short : decode [0x62] = .error .truncated := by rfl

theorem test_decodeTableWord_ckb : decodeTableWord 15 0x0800 = some (.ckb 0) := by decide

theorem test_decodeTableWord_wide : decodeTableWord 16 0x8000 = none ∧ decodeTableWord 17 0x10000 = none := by decide

/-! ## Helpers -/

/-- The reset state with a tag and a script. -/
def at_ (t : Tag) (rs : List Request) : State := { State.reset with tag := t, script := rs }

/-- The same with a queue of one slot that holds a Frame. -/
def full (t : Tag) (rs : List Request) : State :=
  { at_ t rs with cfg := ⟨.slots 1 (by decide)⟩, q := [⟨0x05, 0x01, [0x06, 0x01]⟩] }

/-- The candidate of 95_test_vectors T2 at its second checksum byte. -/
def candidateT2 : State :=
  { at_ .awaitChecksumB [] with
    cls := 0x05, mid := 0x01, len := 2, off := 2, ck1 := 0x0F, accA := 0x0F, accB := 0x38, pbuf := [(0, 0x06), (1, 0x01)] }

/-- A value of the next state, if there is one. -/
def next {α : Type} (o : Host.Outcome State Fault Refusal) (f : State → α) : Option α :=
  match o with
  | .next t => some (f t)
  | .fault _ => none
  | .refused _ => none

/-! ## One step of each operation -/

/-- 95 T19: `B5` from SyncA. -/
theorem test_syncaHit : next (step (at_ .awaitSyncA [.event (.inp 0xB5)])) State.tag = some (.awaitSyncB) := by
  decide

/-- 40_sync R101, example: `IN 62` in SyncA changes nothing. -/
theorem test_syncaMiss : next (step (at_ .awaitSyncA [.event (.inp 0x62)])) (fun t => (t.tag, t.ckErr)) =
    some (.awaitSyncA, false) := by decide

/-- 95 T1: the sums are cleared. -/
theorem test_syncbHit : next (step { at_ .awaitSyncB [.event (.inp 0x62)] with accA := 9, accB := 7 })
    (fun t => (t.tag, t.accA, t.accB)) = some (.awaitClass, 0, 0) := by decide

/-- 95 T19: `B5 B5` gives SyncB, SyncA: the second B5 is consumed. -/
theorem test_syncbMiss_B5 : next (step (at_ .awaitSyncB [.event (.inp 0xB5)])) State.tag =
    some (.awaitSyncA) := by decide

/-- 95 T2, row 05. -/
theorem test_cls : next (step (at_ .awaitClass [.event (.inp 0x05)])) (fun t => (t.tag, t.cls, t.accA, t.accB)) =
    some (.awaitId, 0x05, 0x05, 0x05) := by decide

/-- 95 T2, row 01. -/
theorem test_msgId : next (step { at_ .awaitId [.event (.inp 0x01)] with accA := 0x05, accB := 0x05 })
    (fun t => (t.tag, t.mid, t.accA, t.accB)) = some (.awaitLenLo, 0x01, 0x06, 0x0B) := by decide

/-- 95 T4: both sums wrap (FF, FF then FF gives FE, FD). -/
theorem test_msgId_wraps : next (step { at_ .awaitId [.event (.inp 0xFF)] with accA := 0xFF, accB := 0xFF })
    (fun t => (t.accA, t.accB)) = some (0xFE, 0xFD) := by decide

/-- 95 T2, row 02. -/
theorem test_lenlo : next (step { at_ .awaitLenLo [.event (.inp 0x02)] with accA := 0x06, accB := 0x0B })
    (fun t => (t.tag, t.lenlo, t.accA, t.accB)) = some (.awaitLenHi, 0x02, 0x08, 0x13) := by decide

/-- 95 T5: length bytes `00 01` are 256. -/
theorem test_lenhi_littleEndian : next (step { at_ .awaitLenHi [.event (.inp 0x01)] with lenlo := 0x00, off := 5 })
    (fun t => (t.tag, t.len, t.off)) = some (.awaitPayload, 256, 0) := by decide

/-- 95 T1: a zero length has no payload phase. -/
theorem test_lenhi_zero : next (step { at_ .awaitLenHi [.event (.inp 0x00)] with accA := 0x0E, accB := 0x26 })
    (fun t => (t.tag, t.len, t.accA, t.accB)) = some (.awaitChecksumA, 0, 0x0E, 0x34) := by decide

/-- 95 T2, first payload byte. -/
theorem test_payload : next (step { at_ .awaitPayload [.event (.inp 0x06)] with len := 2, accA := 0x08, accB := 0x1B })
    (fun t => (t.tag, t.pbuf, t.off, t.accA, t.accB)) = some (.awaitPayload, [(0, 0x06)], 1, 0x0E, 0x29) := by
  decide

/-- 95 T2, last payload byte. -/
theorem test_payload_last : next (step { at_ .awaitPayload [.event (.inp 0x01)] with
      len := 2, off := 1, pbuf := [(0, 0x06)], accA := 0x0E, accB := 0x29 })
    (fun t => (t.tag, t.pbuf, t.off, t.accA, t.accB)) =
      some (.awaitChecksumA, [(0, 0x06), (1, 0x01)], 2, 0x0F, 0x38) := by decide

/-- 95 T8: a first checksum byte that is wrong is only stored. -/
theorem test_cka : next (step { at_ .awaitChecksumA [.event (.inp 0x38)] with accA := 0x0F, accB := 0x38 })
    (fun t => (t.tag, t.ck1, t.accA, t.accB)) = some (.awaitChecksumB, 0x38, 0x0F, 0x38) := by decide

/-- 95 T2: match. -/
theorem test_ckb_match : next (step { candidateT2 with script := [.event (.inp 0x38)] })
    (fun t => (t.tag, t.q, t.ckErr)) = some (.awaitSyncA, [⟨0x05, 0x01, [0x06, 0x01]⟩], false) := by decide

/-- 95 T7: `0F 39`. -/
theorem test_ckb_mismatch : next (step { candidateT2 with script := [.event (.inp 0x39)] })
    (fun t => (t.tag, t.q, t.ckErr)) = some (.awaitSyncA, [], true) := by decide

/-- 95 T17: with `QCAP = 1` the byte is on hold and stays offered. -/
theorem test_ckb_hold : step (full .awaitChecksumB [.event (.inp 0x34)]) =
    .next (full .awaitChecksumB [.event (.inp 0x34)]) := by rfl

/-- 95 T17: the TAKE that comes later goes first, and the byte stays offered. -/
theorem test_hold_lets_take_pass : next (step (full .awaitChecksumB [.event (.inp 0x34), .event .take]))
    (fun t => (t.q, t.script, t.inReady)) = some ([], [.event (.inp 0x34)], true) := by decide

/-- 30_encoding R88: at gate level a reserved tag recovers. -/
theorem test_rsvdTag : next (step (full .awaitPayload [.upsetIn 3 0xB5])) (fun t => (t.tag, t.q.length, t.off)) =
    some (.awaitSyncA, 1, 0) := by decide

/-- 95 T16: the oldest Frame is returned. -/
theorem test_take : next (step { at_ .awaitPayload [.event .take] with q := [⟨5, 1, [6, 1]⟩, ⟨0x0A, 4, []⟩] })
    (fun t => (t.tag, t.q, t.outs)) =
      some (.awaitPayload, [⟨0x0A, 4, []⟩], [.taken (some ⟨5, 1, [6, 1]⟩)]) := by decide

/-- 95 T16: an empty TAKE. -/
theorem test_take_empty : step (at_ .awaitSyncA [.event .take]) =
    .next { at_ .awaitSyncA [] with outs := [.taken none] } := by rfl

/-- 95 T22. -/
theorem test_rst : next (step { full .awaitPayload [.event .rst] with off := 3 })
    (fun t => (t.tag, t.q, t.pending, t.ckErr)) = some (.awaitSyncA, [], false, false) := by decide

/-- 95 T16: an empty-payload Frame counts as pending. -/
theorem test_hasPending : next (step { at_ .awaitSyncA [.event .hasPending] with q := [⟨0x0A, 4, []⟩] }) State.outs =
    some [.pending true] := by decide

/-- 95 T16: `PEEK => some (05, 01, 2, [06 01])`. -/
theorem test_peek : next (step (full .awaitSyncA [.event .peek])) (fun t => (t.q.length, t.outs)) =
    some (1, [.peeked (some ⟨5, 1, 2, [6, 1]⟩)]) := by decide

theorem test_rsvdEv : step (at_ .awaitSyncA [.reserved 1]) = .refused .reservedEvent := by rfl

/-- 95 T21: the read window. -/
theorem test_readWindow : ((full .awaitSyncA []).readWindow 0, (full .awaitSyncA []).readWindow 1) = (0x06, 0x01) := by
  decide

/-- 60_exceptions R190. -/
theorem test_conditionCodes : [Condition.syncLoss, .checksumMismatch, .emptyDequeue, .queueFullHold].map Condition.code =
    [1, 2, 3, 4] := by decide

/-! ## The checksum and the wire format -/

/-- 95 T1, T2. -/
theorem test_wire : wire 0x0A 0x04 [] = [0xB5, 0x62, 0x0A, 0x04, 0x00, 0x00, 0x0E, 0x34] ∧
    wire 0x05 0x01 [0x06, 0x01] = [0xB5, 0x62, 0x05, 0x01, 0x02, 0x00, 0x06, 0x01, 0x0F, 0x38] := by decide

/-- 95 T4. -/
theorem test_ck_wraps : ck [0xFF, 0xFF, 0x04, 0x00, 0xFF, 0xFF, 0xFF, 0xFF] = (0xFE, 0xFF) := by decide

/-- 48_payload_decoder R169 and R167: a fix type above 5 is kept; -1000000000 is `00 36 65 C4`. -/
theorem test_nav_parts : fixTypeOf 6 = .other 6 ∧ fixTypeOf 3 = .fix3D ∧
    i32At [0x00, 0x36, 0x65, 0xC4] 0 = -1000000000 := by decide

/-- The payload of the worked example of 48_payload_decoder R171 (95 S2); bytes it does not name are 0. -/
def navExample : List Byte :=
  [0, 0, 0, 0, 0xE8, 0x07, 6, 15, 12, 30, 0, 0, 0, 0, 0, 0, 0, 0, 0, 0, 3, 1, 0, 8] ++
    [0x00, 0x36, 0x65, 0xC4, 0x00, 0x65, 0xCD, 0x1D, 0, 0, 0, 0, 0, 0, 0, 0, 0xDC, 0x05, 0, 0, 0xC4, 0x09, 0, 0] ++
    List.replicate 44 0

/-- 48_payload_decoder R171. -/
theorem test_nav_example : (decodeNav navExample).map (fun r => (r.timestamp, r.fixType, r.gnssFixOk, r.satellites,
    r.horizontalAccuracy, r.verticalAccuracy)) =
      some (.formed ⟨2024, 6, 15, 12, 30, 0, 0, 0, 0⟩, .fix3D, true, 8, 1500, 2500) := by decide

/-- 48_payload_decoder R168, 93 U14: 123456789 ns are 123.456789 ms; there is no 29 February 2023. -/
theorem test_nav_timestamp : timestampOf ⟨2024, 2, 29, 23, 59, 60, 123456789⟩ =
      .formed ⟨2024, 2, 29, 23, 59, 60, 123, 456789, 0⟩ ∧
    timestampOf ⟨2023, 2, 29, 23, 59, 59, 0⟩ = .refused .impossibleDate := by decide

/-- 48_payload_decoder R171: -100.0 and 50.0 (C2C80000 and 42480000), with the product formed in single precision and in
double precision. -/
theorem test_nav_degrees : degreesIn .nearestEven 0 (-1000000000) = 0xC2C80000 ∧ degreesIn .nearestEven 0 500000000 = 0x42480000 ∧
    degreesIn .nearestEven 29 (-1000000000) = 0xC2C80000 ∧ degreesIn .nearestEven 29 500000000 = 0x42480000 := by decide

/-! ## The word the host places is the next one performed -/

theorem test_fetch_rsvdTag : next (step (State.reset.withFetchWord 15 0x0F00)) State.tag = some (.awaitSyncA) := by
  decide

theorem test_fetch_ckb : next (step (State.reset.withFetchWord 15 0x0800)) State.tag = some (.awaitSyncA) := by
  decide

theorem test_fetch_rst : next (step (State.reset.withFetchWord 15 0x2000)) State.outs = some [.wasReset] := by decide

/-! ## Witnesses: states and operands that meet the hypotheses of each statement -/

theorem witness_DecodeEncodeAgree : (Instr.syncaMiss 0xFF).wellFormed = true ∧ (Instr.syncbMiss 0x63).wellFormed = true := by
  decide

theorem witness_OperationMapTotalAndOrdered : ∃ (r t : OpRow) (w : DispatchWord), operationMap[0]? = some r ∧
    operationMap[1]? = some t ∧ r.covers w = true ∧ t.covers w = true :=
  ⟨⟨.syncaHit, 0x00B5, 0x7FFF⟩, ⟨.syncaMiss, 0x0000, 0x7F00⟩, 0x00B5, by decide⟩

theorem witness_StepRunsDecodedOperation_empty : State.reset.script = [] := rfl

theorem witness_StepRunsDecodedOperation_ready : ∃ (s : State) (r : Request) (rest : List Request),
    s.script = r :: rest ∧ s.inReady = true := ⟨at_ .awaitSyncA [.event (.inp 0xB5)], _, _, rfl, by decide⟩

theorem witness_StepRunsDecodedOperation_overtakes : ∃ (s : State) (ins : List Request) (r : Request) (rest : List Request),
    s.inReady = false ∧ (∀ x ∈ ins, IsInput x) ∧ ¬ IsInput r ∧ s.script = ins ++ r :: rest :=
  ⟨full .awaitChecksumB [.event (.inp 1), .event .take], [.event (.inp 1)], .event .take, [], by decide,
    by simp [IsInput], by simp [IsInput], rfl⟩

theorem witness_StepRunsDecodedOperation_stuck : ∃ s : State, s.inReady = false ∧ s.script ≠ [] ∧
    ∀ x ∈ s.script, IsInput x :=
  ⟨full .awaitChecksumB [.event (.inp 1)], by decide, by decide, by simp [full, at_, IsInput]⟩

/-- A state with the invariants in the middle of a payload, its last byte awaited (95 T2). -/
def payloadT2 : State :=
  { at_ .awaitPayload [.event (.inp 0x01)] with
    cls := 0x05, mid := 0x01, len := 2, off := 1, accA := 0x0E, accB := 0x29, pbuf := [(0, 0x06)] }

theorem payloadT2_inv : payloadT2.Inv where
  pbufWf := by decide
  queueBound := fun n h e => by cases e
  payloadBound := fun f hf => by cases hf
  atClass := fun h => by cases h
  atId := fun h => by cases h
  atLenLo := fun h => by cases h
  atLenHi := fun h => by cases h
  atPayload := fun _ => ⟨by decide, fun i hi => by
    have : i = 0 := by
      change i < 1 at hi
      omega
    subst this
    rfl, by unfold State.SumsOf; decide⟩
  atChecksum := fun h => by rcases h with h | h <;> cases h

theorem witness_TransitionRelation : ∃ (s t : State) (b : Byte) (rest : List Request) (g : Tag), s.Inv ∧
    s.tag = g ∧ s.inReady = true ∧ s.script = .event (.inp b) :: rest ∧ step s = .next t :=
  ⟨payloadT2, _, 0x01, [], .awaitPayload, payloadT2_inv, rfl, by decide, rfl, rfl⟩

theorem witness_SyncA : ∃ (s : State) (rest : List Request), s.tag = .awaitSyncA ∧
    s.script = .event (.inp 0xB5) :: rest := ⟨at_ .awaitSyncA [.event (.inp 0xB5)], [], rfl, rfl⟩

theorem witness_SyncAMissChangesNothing : ∃ (s : State) (b : Byte), s.tag = .awaitSyncA ∧ b ≠ 0xB5 :=
  ⟨at_ .awaitSyncA [], 0x62, rfl, by decide⟩

theorem witness_SyncBHitBeginsCandidate : ∃ s : State, s.tag = .awaitSyncB := ⟨at_ .awaitSyncB [], rfl⟩

theorem witness_SyncBMissReturnsToSyncA : ∃ (s : State) (b : Byte), s.tag = .awaitSyncB ∧ b ≠ 0x62 :=
  ⟨at_ .awaitSyncB [], 0xB5, rfl, by decide⟩

theorem witness_ClassStoresAndSums : ∃ s : State, s.tag = .awaitClass ∧ s.accA = 0 ∧ s.accB = 0 :=
  ⟨at_ .awaitClass [], rfl, rfl, rfl⟩

theorem witness_IdStoresAndSums : ∃ s : State, s.tag = .awaitId := ⟨at_ .awaitId [], rfl⟩

theorem witness_LenLoStoresAndSums : ∃ s : State, s.tag = .awaitLenLo := ⟨at_ .awaitLenLo [], rfl⟩

theorem witness_LenHiAssemblesLength : ∃ s t : State, (s.tag = .awaitLenHi ∧ s.lenlo = 0) ∧
    t.tag = .awaitLenHi ∧ t.lenlo = 0xFF := ⟨at_ .awaitLenHi [], { at_ .awaitLenHi [] with lenlo := 0xFF }, by decide⟩

theorem witness_HeaderClosedForm : ∃ (s : State) (c i l h : Byte) (rest : List Request), s.tag = .awaitClass ∧
    s.accA = 0 ∧ s.accB = 0 ∧ s.script = inputs [c, i, l, h] ++ rest :=
  ⟨at_ .awaitClass (inputs [5, 1, 2, 0]), 5, 1, 2, 0, [], rfl, rfl, rfl, rfl⟩

theorem witness_PayloadStoresAtOffset : ∃ s : State, s.tag = .awaitPayload ∧ s.off.toNat < s.len.toNat :=
  ⟨payloadT2, by decide⟩

theorem witness_PayloadFaultsOnlyPastPbuf : ∃ s t : State, s.off.toNat = 65535 ∧ t.off.toNat = 65534 :=
  ⟨{ State.reset with off := 65535 }, { State.reset with off := 65534 }, by decide⟩

theorem witness_PayloadFillsBufferInOrder : ∃ (s : State) (p : List Byte) (rest : List Request),
    s.tag = .awaitPayload ∧ s.off = 0 ∧ s.len.toNat = p.length ∧ p ≠ [] ∧
    s.SumsOf (covered s.cls s.mid s.len []) ∧ s.script = inputs p ++ rest :=
  ⟨{ at_ .awaitPayload (inputs [6, 1]) with cls := 5, mid := 1, len := 2, accA := 0x08, accB := 0x1B }, [6, 1], [], rfl,
    rfl, rfl, by decide, by unfold State.SumsOf; decide, rfl⟩

/-- The candidate of 95 T2 at its second checksum byte has the invariants. -/
theorem candidateT2_inv : candidateT2.Inv where
  pbufWf := by decide
  queueBound := fun n h e => by cases e
  payloadBound := fun f hf => by cases hf
  atClass := fun h => by cases h
  atId := fun h => by cases h
  atLenLo := fun h => by cases h
  atLenHi := fun h => by cases h
  atPayload := fun h => by cases h
  atChecksum := fun _ => ⟨rfl, fun i hi => by
    have : i = 0 ∨ i = 1 := by
      change i < 2 at hi
      omega
    rcases this with rfl | rfl <;> rfl, by unfold State.SumsOf; decide⟩

theorem witness_RunningSumsEqualBatchChecksum : ∃ s : State, s.Inv ∧ s.tag = .awaitChecksumB ∧
    s.checksumMatches 0x38 = true ∧ s.checksumMatches 0x39 = false := ⟨candidateT2, candidateT2_inv, rfl, by decide⟩

theorem witness_CandidateSumsFromSyncB : ∃ (s : State) (p : List Byte), s.tag = .awaitSyncB ∧ p.length ≤ 65535 ∧
    p ≠ [] ∧ s.script = inputs (syncB :: (covered 5 1 (lengthField p) p ++ [0x0F])) ++ [.event (.inp 0x38)] :=
  ⟨at_ .awaitSyncB (inputs [0x62, 5, 1, 2, 0, 6, 1, 0x0F, 0x38]), [6, 1], rfl, by decide, by decide, rfl⟩

theorem witness_WhatTheChecksumCatches : ∃ x y : Byte, x ≠ y := ⟨0x02, 0x42, by decide⟩

theorem witness_CkaOnlyStores : ∃ s : State, s.tag = .awaitChecksumA := ⟨at_ .awaitChecksumA [], rfl⟩

theorem hasRoom_of_inf {s : State} (h : s.cfg.qcap = .inf) : s.HasRoom := fun n hn e => by rw [h] at e; cases e

theorem witness_CkbMatchPublishesFrame : ∃ (s : State) (b : Byte), s.tag = .awaitChecksumB ∧ s.HasRoom ∧
    s.ck1 = s.accA ∧ b = s.accB ∧ 0 < s.len.toNat :=
  ⟨candidateT2, 0x38, rfl, hasRoom_of_inf rfl, rfl, rfl, by decide⟩

theorem witness_CkbMismatchEmitsCkErr : ∃ (s : State) (b : Byte), s.tag = .awaitChecksumB ∧ s.HasRoom ∧
    ¬ (s.ck1 = s.accA ∧ b = s.accB) := ⟨candidateT2, 0x39, rfl, hasRoom_of_inf rfl, by decide⟩

theorem witness_CkErrOnlyFromFailingCkb : ∃ (i : Instr) (s t : State), exec i s = .next t ∧
    ckErrCount t.outs ≠ ckErrCount s.outs := ⟨.ckb 0x39, candidateT2, _, rfl, by decide⟩

theorem full_Full (t : Tag) (rs : List Request) : (full t rs).Full := ⟨1, by decide, rfl, Nat.le_refl 1⟩

theorem witness_FullQueueHoldsInput : ∃ s : State, s.tag = .awaitChecksumB ∧ s.Full ∧ s.inReady = false ∧
    s.script ≠ [] ∧ ∀ r ∈ s.script, IsInput r :=
  ⟨full .awaitChecksumB [.event (.inp 0x34)], rfl, full_Full _ _, by decide, by decide, by simp [full, at_, IsInput]⟩

theorem witness_FullQueueHoldsInput_inf : State.reset.cfg.qcap = .inf := rfl

/-- The candidate of 95 T2 held by a full queue of one slot. -/
def heldT2 : State := { candidateT2 with cfg := ⟨.slots 1 (by decide)⟩, q := [⟨0x0A, 0x04, []⟩] }

theorem heldT2_inv : heldT2.Inv where
  pbufWf := by decide
  queueBound := fun n h e => by cases e; decide
  payloadBound := fun f hf => by
    have : f = ⟨0x0A, 0x04, []⟩ := by simpa [heldT2] using hf
    subst this
    decide
  atClass := fun h => by cases h
  atId := fun h => by cases h
  atLenLo := fun h => by cases h
  atLenHi := fun h => by cases h
  atPayload := fun h => by cases h
  atChecksum := candidateT2_inv.atChecksum

theorem witness_OnlyTakeOrResetLiftsHold : ∃ s t u v : State, s.Inv ∧ s.inReady = false ∧ exec .take s = .next t ∧
    exec .rst s = .next u ∧ exec .peek s = .next v := ⟨heldT2, _, _, _, heldT2_inv, by decide, rfl, rfl, rfl⟩

theorem witness_PeekShowsHead : ∃ (s t : State) (f : Frame) (fs : List Frame), s.q = [] ∧ t.q = f :: fs :=
  ⟨State.reset, heldT2, _, _, rfl, rfl⟩

theorem witness_HeadViewStable : ∃ (s : State) (f : Frame) (fs : List Frame) (a : Half), s.q = f :: fs ∧
    a.toNat < f.payload.length := ⟨full .awaitSyncA [], _, _, 1, rfl, by decide⟩

theorem witness_HeadViewStable_step : ∃ (i : Instr) (s t : State), exec i s = .next t ∧ i ≠ .take ∧ i ≠ .rst ∧ s.q ≠ [] :=
  ⟨.peek, heldT2, _, rfl, by decide, by decide, by decide⟩

theorem witness_TakeRemovesOldest : ∃ (s : State) (f : Frame) (fs : List Frame), s.q = f :: fs := ⟨heldT2, _, _, rfl⟩

theorem witness_TakeOnEmptyReturnsNone : ∃ s : State, s.q = [] := ⟨State.reset, rfl⟩

theorem witness_QueueWriters : ∃ (i : Instr) (s t : State), exec i s = .next t := ⟨.ckb 0x38, candidateT2, _, rfl⟩

/-- The candidate of 95 T2 with its last byte offered. -/
def candidateT2Offered : State := { candidateT2 with script := [.event (.inp 0x38)] }

theorem candidateT2Offered_inv : candidateT2Offered.Inv :=
  ⟨candidateT2_inv.1, candidateT2_inv.2, candidateT2_inv.3, candidateT2_inv.4, candidateT2_inv.5, candidateT2_inv.6,
    candidateT2_inv.7, candidateT2_inv.8, candidateT2_inv.9⟩

theorem witness_OnlyValidatedFramesEnter : ∃ s t : State, s.Inv ∧ step s = .next t ∧ s.q.length < t.q.length :=
  ⟨candidateT2Offered, _, candidateT2Offered_inv, rfl, by decide⟩

theorem witness_ReservedTagRecovers : ∃ (s : State) (rest : List Request), s.tag = .awaitPayload ∧
    s.script = .upsetIn 6 0xB5 :: rest := ⟨at_ .awaitPayload [.upsetIn 6 0xB5], [], rfl, rfl⟩

theorem witness_StepKeepsInvariants : ∃ s t : State, s.Inv ∧ step s = .next t := ⟨payloadT2, _, payloadT2_inv, rfl⟩

theorem witness_NoInputIsIllegal : ∃ s : State, s.Inv ∧ NoReserved s.script ∧ s.script ≠ [] :=
  ⟨payloadT2, payloadT2_inv, by simp [NoReserved, payloadT2, at_], by decide⟩

theorem witness_FramingRoundTrip : ∃ (s : State) (c i : Byte) (p : List Byte) (chunks : List (List Byte)),
    s.tag = .awaitSyncA ∧ s.HasRoom ∧ s.script = [] ∧ p.length ≤ 65535 ∧ chunks.flatten = wire c i p :=
  ⟨State.reset, 5, 1, [6, 1], [[0xB5], [0x62, 5, 1, 2, 0, 6, 1, 0x0F], [], [0x38]], rfl, hasRoom_of_inf rfl, rfl,
    by decide, by decide⟩

theorem witness_CorruptedFrameThenGoodFrame : ∃ (s : State) (c i : Byte) (p : List Byte) (a b : Byte) (p2 : List Byte),
    s.tag = .awaitSyncA ∧ s.HasRoom ∧ s.script = [] ∧ p.length ≤ 65535 ∧ p2.length ≤ 65535 ∧
    (a, b) ≠ ck (covered c i (lengthField p) p) :=
  ⟨State.reset, 5, 1, [6, 1], 0x0F, 0x39, [], rfl, hasRoom_of_inf rfl, rfl, by decide, by decide, by decide⟩

theorem witness_FramesOfWellFormedStream : ∀ f ∈ [(⟨5, 1, [6, 1]⟩ : Frame), ⟨0x0A, 4, []⟩], f.payload.length ≤ 65535 := by
  decide

theorem witness_TakenFramesFollowStream : ∃ (s t : State) (n : Nat), s.tag = .awaitSyncA ∧
    Request.event .rst ∉ s.script ∧ OnlyEvents s.script ∧ run n s = .next t ∧ 0 < n :=
  ⟨at_ .awaitSyncA [.event (.inp 0xB5), .event .take], _, 2, rfl, by decide, by simp [OnlyEvents, at_], rfl, by decide⟩

theorem witness_DeadScratchUnobservable : ∃ (s t s' : State) (n : Nat), SameOutside s t ∧ s ≠ t ∧
    (s.tag = .awaitSyncA ∨ s.tag = .awaitSyncB) ∧ run n s = .next s' ∧ 0 < n :=
  ⟨at_ .awaitSyncA [.event (.inp 0xB5)], { at_ .awaitSyncA [.event (.inp 0xB5)] with cls := 7, len := 9 }, _, 1,
    ⟨rfl, rfl, rfl, rfl, rfl⟩, by decide, .inl rfl, rfl, by decide⟩

theorem witness_FramesPerIngestBound : ∃ (bytes : List Byte) (s t : State), s.script = [] ∧ ingest bytes s = .next t ∧
    t.q.length = s.q.length + 1 := ⟨[0x38], candidateT2, _, rfl, rfl, by decide⟩

theorem witness_NoiseWithoutSyncPair : ∃ (s : State) (g : List Byte), s.tag = .awaitSyncA ∧ s.script = [] ∧
    NoSyncPair g ∧ trailingSyncA g = 1 := ⟨State.reset, [0x00, 0xB5], rfl, rfl, by unfold NoSyncPair; decide, by decide⟩

theorem witness_FrameAfterNoise : ∃ (s u v : State) (g h : List Byte) (p : List Byte), s.tag = .awaitSyncA ∧
    s.HasRoom ∧ s.script = [] ∧ p.length ≤ 65535 ∧ ingest g s = .next u ∧ u.q = s.q ∧ u.tag = .awaitSyncA ∧
    ingest h s = .next v ∧ v.q = s.q ∧ v.tag = .awaitSyncB :=
  ⟨State.reset, _, _, [0xB5, 0x00], [0xB5], [], rfl, hasRoom_of_inf rfl, rfl, by decide, rfl, rfl, rfl, rfl, rfl, rfl⟩

theorem witness_ClockCycleOrder : ∃ (p : PortsIn) (s u v : State), p.rst = false ∧ p.take = true ∧ p.inValid = true ∧
    s.inReady = false ∧ u.inReady = true ∧
    exec .take { u with script := [.event .take, .event (.inp p.inData)], draw := u.draw + 1 } = .next v :=
  ⟨⟨false, true, 0x38, 0, true⟩, heldT2, State.reset, _, rfl, rfl, rfl, by decide, by decide, rfl⟩

theorem witness_ClockCycleOrder_reset : ∃ p r : PortsIn, p.rst = true ∧ r.rst = false ∧ r.take = false ∧ r.inValid = true :=
  ⟨⟨true, true, 0, 0, true⟩, ⟨false, true, 0, 0, false⟩, rfl, rfl, rfl, rfl⟩

theorem witness_ClockCycleOrder_idle : ∃ p : PortsIn, p.rst = false ∧ p.take = false ∧ p.inValid = false :=
  ⟨⟨false, false, 0, 0, false⟩, rfl, rfl, rfl⟩

/-- A cycle whose `IN` is a failing CKB, and the cycle itself. -/
theorem witness_ClockCycleOrder_ckErr : ∃ (p : PortsIn) (t : State), cycle p candidateT2 = .next t ∧ p.rst = false ∧
    p.inValid = true ∧ candidateT2.inReady = true ∧ ¬ (candidateT2.ck1 = candidateT2.accA ∧ p.inData = candidateT2.accB) :=
  ⟨⟨false, true, 0x39, 0, true⟩, _, rfl, rfl, rfl, by decide, by decide⟩

theorem witness_IngestAcceptsAllUnlessHeld : ∃ t u : State, ingest [0x38] candidateT2 = .next t ∧ t.script = [] ∧
    ingest [0x38] heldT2 = .next u ∧ u.inReady = false ∧ u.script ≠ [] :=
  ⟨_, _, rfl, rfl, rfl, by decide, by decide⟩

theorem witness_DrainReturnsQueueInOrder : ∃ s : State, s.script = [] ∧ s.q ≠ [] := ⟨heldT2, rfl, by decide⟩

/-- The second part, with a held byte still offered. -/
theorem witness_DrainReturnsQueueInOrder_offered : ∃ t : State,
    drain (heldT2.offer [.event (.inp 0x38)]) = .next t ∧ heldT2.q ≠ [] := ⟨_, rfl, by decide⟩

theorem witness_NavDecoderFields : ∃ (p : List Byte) (r : NavPositionVelocityTime), p.length = 92 ∧ decodeNav p = some r :=
  ⟨List.replicate 92 0, _, by decide, rfl⟩

theorem witness_NavTimestamp : ∃ (p : List Byte) (r : NavPositionVelocityTime), decodeNav p = some r ∧
    0 ≤ r.utc.nanosecond ∧ r.utc.dateExists = true := ⟨navExample, _, rfl, by decide, by decide⟩

theorem witness_NavTimestamp_refused : ∃ (p : List Byte) (r u : NavPositionVelocityTime),
    decodeNav (List.replicate 92 0xFF) = some r ∧ r.utc.nanosecond < 0 ∧ decodeNav p = some u ∧
    0 ≤ u.utc.nanosecond ∧ u.utc.dateExists = false := ⟨List.replicate 92 0, _, _, rfl, by decide, rfl, by decide, by decide⟩

theorem witness_NavDegreesNearProduct : ∃ raw : Int, -2147483648 ≤ raw ∧ raw < 2147483648 ∧ raw ≠ 0 :=
  ⟨-1000000000, by decide⟩

end Sys2Proof.Tests
end

section
/-! PROOF. What one step performs (00_scope R8): how the map is read for a `CKB` word, what stands first in the script
during a hold (44_queue_host R145), and the settlement of O5. -/

namespace Sys2Proof

/-- The map read in priority order (30_encoding R82): the first row that covers the word is the operation. -/
theorem decodeOp_of_first {w : DispatchWord} {before after : List OpRow} {r : OpRow}
    (hmap : operationMap = before ++ r :: after) (hr : r.covers w = true)
    (hbefore : ∀ a ∈ before, (!a.covers w) = true) : decodeOp w = r.op := by
  have hfind : operationMap.find? (fun r => r.covers w) = some r :=
    List.find?_eq_some_iff_append.mpr ⟨hr, before, after, hmap, hbefore⟩
  rw [decodeOp, hfind]

/-- A row whose mask holds all of `ev` and `tag` covers a word only when the word's `ev` and `tag` are those of its
pattern. -/
theorem OpRow.pattern_of_covers {r : OpRow} {ev : BitVec 3} {tag : BitVec 4} {b : Byte}
    (hmask : r.mask &&& 0x7F00#15 = 0x7F00#15) (h : r.covers (mkWord ev tag b) = true) :
    r.pattern &&& 0x7F00#15 = mkWord ev tag 0 := by
  have hcovers : mkWord ev tag b &&& r.mask = r.pattern := eq_of_beq h
  rw [← hcovers, BitVec.and_assoc, hmask, mkWord_and_byteMask]

theorem decodeWord_ckb (b : Byte) : decodeWord (mkWord 0 8 b) = .ckb b := by
  have hrows : ∀ a ∈ byteRows.take 10,
      a.mask &&& 0x7F00#15 = 0x7F00#15 ∧ a.pattern &&& 0x7F00#15 ≠ mkWord 0 8 0 := by decide
  have hop : decodeOp (mkWord 0 8 b) = .ckb := by
    refine decodeOp_of_first (before := byteRows.take 10) (r := ⟨.ckb, 0x0800, 0x7F00⟩) rfl
      (Laws.RowOfMap.ckb b rfl) fun a ha => ?_
    obtain ⟨hmask, hpattern⟩ := hrows a ha
    exact (Bool.not_eq_true' _).mpr (Bool.eq_false_iff.mpr fun hc => hpattern (OpRow.pattern_of_covers hmask hc))
  rw [decodeWord, hop, Op.build, byteField_mkWord]

namespace Machine

theorem State.inReady_eq_true_iff (s : State) : s.inReady = true ↔ s.held = false := by simp [State.inReady]

theorem State.inReady_eq_false_iff (s : State) : s.inReady = false ↔ s.held = true := by simp [State.inReady]

/-! ## Which request stands first during a hold -/

theorem exists_inputs_of_forall_isInput {rs : List Request} (h : ∀ x ∈ rs, IsInput x) : ∃ bytes, rs = inputs bytes := by
  induction rs with
  | nil => exact ⟨[], rfl⟩
  | cons x xs ih =>
    obtain ⟨⟨b, rfl⟩, hxs⟩ := List.forall_mem_cons.mp h
    obtain ⟨bytes, rfl⟩ := ih hxs
    exact ⟨b :: bytes, rfl⟩

theorem nextHostRequest_cons_of_not_isInput {r : Request} (h : ¬ IsInput r) (rest : List Request) :
    nextHostRequest (r :: rest) = some (r, rest) := by
  cases r with
  | event e =>
    cases e with
    | inp b => exact absurd ⟨b, rfl⟩ h
    | take | rst | hasPending | peek => rfl
  | upsetIn code b => rfl
  | reserved code => rfl

/-- During a hold the first request that is no `IN` goes before the bytes that stand in front of it. -/
theorem State.present_of_held_overtakes {s : State} {bytes : List Byte} {r : Request} {rest : List Request}
    (h : s.held = true) (hr : ¬ IsInput r) (hs : s.script = inputs bytes ++ r :: rest) :
    s.present = { s with script := r :: (inputs bytes ++ rest) } := by
  have hnext : nextHostRequest s.script = some (r, inputs bytes ++ rest) := by
    rw [hs, nextHostRequest_append, nextHostRequest_cons_of_not_isInput hr, Option.map_some]
  simp only [State.present, h, hnext, if_true]

theorem State.present_of_held_inputs {s : State} {bytes : List Byte} (h : s.held = true)
    (hs : s.script = inputs bytes) : s.present = s := by
  have hnext : nextHostRequest s.script = none := by rw [hs, nextHostRequest_inputs]
  simp only [State.present, h, hnext, if_true]

/-! ## The step during a hold -/

theorem step_of_held_overtakes {s : State} {bytes : List Byte} {r : Request} {rest : List Request}
    (h : s.held = true) (hr : ¬ IsInput r) (hs : s.script = inputs bytes ++ r :: rest) :
    step s = exec (decodeWord (dispatchWord r s.tag)) { s with script := r :: (inputs bytes ++ rest) } := by
  rw [step, State.present_of_held_overtakes h hr hs]

/-- With bytes only, the held byte is dispatched as a `CKB` on hold, which changes nothing (60_exceptions R194). -/
theorem step_of_held_inputs {s : State} {bytes : List Byte} (h : s.held = true) (hs : s.script = inputs bytes) :
    step s = .next s := by
  cases bytes with
  | nil => exact step_of_empty hs
  | cons b bytes =>
    obtain ⟨htag, -⟩ := (State.held_iff s).mp h
    have hdecode : decodeWord (dispatchWord (.event (.inp b)) s.tag) = .ckb b := by
      rw [htag]
      exact decodeWord_ckb b
    have hscript : s.script = .event (.inp b) :: inputs bytes := hs
    rw [step, State.present_of_held_inputs h hs, hscript]
    change exec (decodeWord (dispatchWord (.event (.inp b)) s.tag)) s = .next s
    rw [hdecode, exec, execCkb_of_held b h]

end Machine
end Sys2Proof

open Sys2Proof Sys2Proof.Machine

/-- Settles O5: no request, a request with the input ready, and the two outcomes of a hold. -/
theorem stepRunsDecodedOperation : Obligations.StepRunsDecodedOperation := by
  intro s
  refine ⟨step_of_empty, ?ready, ?overtakes, ?stuck⟩
  case ready =>
    intro r rest hs hready
    exact step_of_not_held (s.inReady_eq_true_iff.mp hready) hs
  case overtakes =>
    intro ins r rest hready hins hr hs
    obtain ⟨bytes, rfl⟩ := exists_inputs_of_forall_isInput hins
    exact step_of_held_overtakes (s.inReady_eq_false_iff.mp hready) hr hs
  case stuck =>
    intro hready hins
    obtain ⟨bytes, hs⟩ := exists_inputs_of_forall_isInput hins
    exact step_of_held_inputs (s.inReady_eq_false_iff.mp hready) hs

end

section
/-! PROOF. Reading the operation map for the word of a request (30_encoding R81, R82): the byte counts at the two sync
bytes only, so the map agrees with a match on the event, the tag and the byte. -/

namespace Sys2Proof

/-- A row whose mask holds none of the byte's bits covers a word whatever its byte. -/
theorem OpRow.covers_mkWord_of_no_byte {r : OpRow} (hmask : r.mask &&& 0x7F00#15 = r.mask) (ev : BitVec 3)
    (tag : BitVec 4) (b : Byte) : r.covers (mkWord ev tag b) = r.covers (mkWord ev tag 0) := by
  have hword : mkWord ev tag b &&& r.mask = mkWord ev tag 0 &&& r.mask := by
    rw [← hmask, BitVec.and_comm r.mask, ← BitVec.and_assoc, ← BitVec.and_assoc, mkWord_and_byteMask,
      mkWord_and_byteMask]
  rw [OpRow.covers, OpRow.covers, hword]

/-- A row whose mask holds every bit covers the word of its own byte only. -/
theorem OpRow.byte_eq_of_covers {r : OpRow} (hmask : r.mask = 0x7FFF#15) {ev : BitVec 3} {tag : BitVec 4} {b : Byte}
    (h : r.covers (mkWord ev tag b) = true) : b = byteField r.pattern := by
  have hcovers : mkWord ev tag b &&& r.mask = r.pattern := eq_of_beq h
  have hall : ∀ w : DispatchWord, w &&& 0x7FFF#15 = w := fun w => BitVec.and_allOnes (x := w)
  rw [← hcovers, hmask, hall, byteField_mkWord]

/-- The rows of the map hold none of the byte's bits, or all bits of a word whose byte is a sync byte. -/
theorem operationMap_masks : ∀ r ∈ operationMap, r.mask &&& 0x7F00#15 = r.mask ∨
    (r.mask = 0x7FFF#15 ∧ (byteField r.pattern = syncA ∨ byteField r.pattern = syncB) ∧
      byteField r.pattern ≠ 0) := by
  decide

/-- A byte that is no sync byte does not count for the operation. -/
theorem decodeOp_mkWord_of_no_sync {b : Byte} (hA : b ≠ syncA) (hB : b ≠ syncB) (ev : BitVec 3) (tag : BitVec 4) :
    decodeOp (mkWord ev tag b) = decodeOp (mkWord ev tag 0) := by
  have hrows : ∀ r ∈ operationMap, r.covers (mkWord ev tag b) = r.covers (mkWord ev tag 0) := by
    intro r hr
    rcases operationMap_masks r hr with hmask | ⟨hmask, hsync, hzero⟩
    · exact OpRow.covers_mkWord_of_no_byte hmask ev tag b
    · have hb : ¬ r.covers (mkWord ev tag b) = true := fun h => by
        have hbyte := OpRow.byte_eq_of_covers hmask h
        rcases hsync with hs | hs
        · exact hA (hbyte.trans hs)
        · exact hB (hbyte.trans hs)
      have h0 : ¬ r.covers (mkWord ev tag 0) = true := fun h => hzero (OpRow.byte_eq_of_covers hmask h).symm
      rw [Bool.eq_false_iff.mpr hb, Bool.eq_false_iff.mpr h0]
  have hfind : operationMap.find? (fun r => r.covers (mkWord ev tag b)) =
      operationMap.find? (fun r => r.covers (mkWord ev tag 0)) := List.find?_congr hrows
  rw [decodeOp, decodeOp, hfind]

/-- Every byte selects what one of three bytes selects: a sync byte itself, and any other byte what 0 does. -/
theorem exists_decodeOp_mkWord_eq (ev : BitVec 3) (tag : BitVec 4) (b : Byte) :
    ∃ y ∈ [syncA, syncB, 0], (y = b ∨ y = 0) ∧ decodeOp (mkWord ev tag b) = decodeOp (mkWord ev tag y) := by
  by_cases hA : b = syncA
  · exact ⟨b, by simp [hA], .inl rfl, rfl⟩
  · by_cases hB : b = syncB
    · exact ⟨b, by simp [hB], .inl rfl, rfl⟩
    · exact ⟨0, by simp, .inr rfl, decodeOp_mkWord_of_no_sync hA hB ev tag⟩

/-- An operation that the tag alone selects. -/
theorem decodeWord_mkWord_of_tag (ev : BitVec 3) (tag : BitVec 4) {op : Op} (b : Byte)
    (h : ∀ y ∈ [syncA, syncB, 0], decodeOp (mkWord ev tag y) = op) :
    decodeWord (mkWord ev tag b) = op.build (mkWord ev tag b) := by
  obtain ⟨y, hy, -, hop⟩ := exists_decodeOp_mkWord_eq ev tag b
  rw [decodeWord, hop, h y hy]

/-- An operation that the tag selects for every byte but `x`. -/
theorem decodeWord_mkWord_of_miss (ev : BitVec 3) (tag : BitVec 4) {op : Op} {x b : Byte}
    (h : ∀ y ∈ [syncA, syncB, 0], y ≠ x → decodeOp (mkWord ev tag y) = op) (h0 : 0 ≠ x) (hb : b ≠ x) :
    decodeWord (mkWord ev tag b) = op.build (mkWord ev tag b) := by
  obtain ⟨y, hy, hyb, hop⟩ := exists_decodeOp_mkWord_eq ev tag b
  have hyx : y ≠ x := by
    rcases hyb with rfl | rfl
    · exact hb
    · exact h0
  rw [decodeWord, hop, h y hy hyx]

namespace Machine

/-- An `IN` is read by the tag and then, in the two sync tags, by the byte. -/
theorem decodeWord_dispatchWord_inp (b : Byte) (t : Tag) :
    decodeWord (dispatchWord (.event (.inp b)) t) = operationOf (.event (.inp b)) t := by
  have hbyte (tag : BitVec 4) : byteField (mkWord 0 tag b) = b := byteField_mkWord 0 tag b
  cases t with
  | awaitSyncA =>
    by_cases hb : b = 0xB5
    · rw [hb]; decide
    · rw [operationOf, if_neg hb]
      exact (decodeWord_mkWord_of_miss 0 0 (op := .syncaMiss) (by decide) (by decide) hb).trans
        (congrArg Instr.syncaMiss (hbyte 0))
  | awaitSyncB =>
    by_cases hb : b = 0x62
    · rw [hb]; decide
    · rw [operationOf, if_neg hb]
      exact (decodeWord_mkWord_of_miss 0 1 (op := .syncbMiss) (by decide) (by decide) hb).trans
        (congrArg Instr.syncbMiss (hbyte 1))
  | awaitClass => exact (decodeWord_mkWord_of_tag 0 2 (op := .cls) b (by decide)).trans (congrArg Instr.cls (hbyte 2))
  | awaitId => exact (decodeWord_mkWord_of_tag 0 3 (op := .msgId) b (by decide)).trans (congrArg Instr.msgId (hbyte 3))
  | awaitLenLo =>
    exact (decodeWord_mkWord_of_tag 0 4 (op := .lenlo) b (by decide)).trans (congrArg Instr.lenlo (hbyte 4))
  | awaitLenHi =>
    exact (decodeWord_mkWord_of_tag 0 5 (op := .lenhi) b (by decide)).trans (congrArg Instr.lenhi (hbyte 5))
  | awaitPayload =>
    exact (decodeWord_mkWord_of_tag 0 6 (op := .payload) b (by decide)).trans (congrArg Instr.payload (hbyte 6))
  | awaitChecksumA =>
    exact (decodeWord_mkWord_of_tag 0 7 (op := .cka) b (by decide)).trans (congrArg Instr.cka (hbyte 7))
  | awaitChecksumB => exact decodeWord_ckb b

theorem decodeWord_dispatchWord_upsetIn (code : Fin 7) (b : Byte) (t : Tag) :
    decodeWord (dispatchWord (.upsetIn code b) t) = .rsvdTag code b := by
  have hop : ∀ code : Fin 7, ∀ x ∈ [syncA, syncB, 0],
      decodeOp (mkWord 0 (BitVec.ofNat 4 (9 + code.val)) x) = .rsvdTag := by decide
  have hcode : ∀ code : Fin 7, Fin.ofNat 7 ((BitVec.ofNat 4 (9 + code.val)).toNat - 9) = code := by decide
  refine (decodeWord_mkWord_of_tag 0 _ b (hop code)).trans ?_
  rw [Op.build, tagField_mkWord, byteField_mkWord, hcode]

/-- The map read for the word of a request gives the operation of a match on event, tag and byte (30_encoding R81). -/
@[simp] theorem decodeWord_dispatchWord (r : Request) (t : Tag) : decodeWord (dispatchWord r t) = operationOf r t := by
  cases r with
  | event e =>
    cases e with
    | inp b => exact decodeWord_dispatchWord_inp b t
    | take | rst | hasPending | peek => cases t <;> decide
  | upsetIn code b => exact decodeWord_dispatchWord_upsetIn code b t
  | reserved code => revert code; cases t <;> decide

end Machine
end Sys2Proof
end

section
/-! PROOF. What a step performs, by the constructors of the request and of the tag (30_encoding R81); what an operation
does to the queue (10_state R41), said once. -/

namespace Sys2Proof.Machine

/-! ## The step -/

/-- Presenting a request changes the script alone. -/
theorem State.present_eq (s : State) : s.present = { s with script := s.present.script } := by
  obtain ⟨rs, hrs⟩ := s.present_eq_with_script
  rw [hrs]

@[simp] theorem State.present_cfg (s : State) : s.present.cfg = s.cfg := by rw [s.present_eq]

@[simp] theorem State.present_tag (s : State) : s.present.tag = s.tag := by rw [s.present_eq]

@[simp] theorem State.present_ck1 (s : State) : s.present.ck1 = s.ck1 := by rw [s.present_eq]

@[simp] theorem State.present_q (s : State) : s.present.q = s.q := by rw [s.present_eq]

@[simp] theorem State.present_outs (s : State) : s.present.outs = s.outs := by rw [s.present_eq]

theorem step_of_present {s : State} {r : Request} {rest : List Request} (hs : s.present.script = r :: rest) :
    step s = exec (operationOf r s.present.tag) s.present := by
  simp [step, hs]

theorem step_of_present_nil {s : State} (hs : s.present.script = []) : step s = .next s := by rw [step, hs]

/-- A step that answers a next state changes nothing, with no request offered, or performs the request that stands
first. -/
theorem step_next_performs {s t : State} (h : step s = .next t) :
    (s.present.script = [] ∧ t = s) ∨
      ∃ r rest, s.present.script = r :: rest ∧ exec (operationOf r s.present.tag) s.present = .next t := by
  cases hs : s.present.script with
  | nil =>
    rw [step_of_present_nil hs] at h
    cases h
    exact .inl ⟨rfl, rfl⟩
  | cons r rest => exact .inr ⟨r, rest, rfl, (step_of_present hs).symm.trans h⟩

/-- Only an `IN` in the tag AwaitChecksumB is a CKB. -/
theorem eq_of_operationOf_eq_ckb {r : Request} {g : Tag} {b : Byte} (h : operationOf r g = .ckb b) :
    r = .event (.inp b) ∧ g = .awaitChecksumB := by
  cases r with
  | event e =>
    cases e with
    | inp x =>
      cases g with
      | awaitChecksumB => cases h; exact ⟨rfl, rfl⟩
      | awaitSyncA | awaitSyncB => rw [operationOf] at h; split at h <;> cases h
      | _ => cases h
    | _ => cases h
  | _ => cases h

/-! ## The three meanings that branch, read backwards -/

theorem exec_payload_next {s t : State} {b : Byte} (h : exec (.payload b) s = .next t) :
    s.off.toNat < maxLen ∧
      t = (((({ s with pbuf := s.pbuf.write s.off.toNat b, off := s.off + 1 } : State).accumulate b).setTag
        (if s.off + 1 = s.len then .awaitChecksumA else .awaitPayload)).accept false) := by
  by_cases hlt : s.off.toNat < maxLen
  · rw [exec, execPayload_of_lt b hlt] at h
    cases h
    exact ⟨hlt, rfl⟩
  · rw [exec, execPayload_of_not_lt b hlt] at h
    cases h

theorem exec_ckb_next {s t : State} {b : Byte} (h : exec (.ckb b) s = .next t) :
    (s.held = true ∧ t = s) ∨
      (s.held = false ∧ s.checksumMatches b = true ∧
        t = (((s.push s.candidate).discardScratch).setTag .awaitSyncA).accept false) ∨
      (s.held = false ∧ s.checksumMatches b = false ∧ t = (s.discardScratch.setTag .awaitSyncA).accept true) := by
  cases hh : s.held with
  | true =>
    rw [exec, execCkb_of_held b hh] at h
    cases h
    exact .inl ⟨rfl, rfl⟩
  | false =>
    cases hc : s.checksumMatches b with
    | true =>
      rw [exec, execCkb_of_match hh hc] at h
      cases h
      exact .inr (.inl ⟨rfl, rfl, rfl⟩)
    | false =>
      rw [exec, execCkb_of_mismatch hh hc] at h
      cases h
      exact .inr (.inr ⟨rfl, rfl, rfl⟩)

/-- TAKE in one form: `Q.pop()` leaves an empty queue empty. -/
theorem execTake_eq (s : State) : execTake s = .next (s.pop.retire (.taken s.q.head?)) := by
  cases hq : s.q with
  | nil =>
    have hpop : s.pop = s := by rw [State.pop, hq, List.tail_nil, ← hq]
    rw [execTake_of_nil hq, hpop, List.head?_nil]
  | cons f fs => rw [execTake_of_cons hq, List.head?_cons]

theorem exec_take_next {s t : State} (h : exec .take s = .next t) : t = s.pop.retire (.taken s.q.head?) := by
  rw [exec, execTake_eq] at h
  cases h
  rfl

theorem exec_script_of_not_held {i : Instr} {s t : State} (hheld : s.held = false) (h : exec i s = .next t) :
    t.script = s.script.tail := by
  rcases exec_frame h with ⟨-, htail, -⟩ | ⟨-, hh, -⟩
  · exact htail
  · exact absurd (hheld.symm.trans hh) (by decide)

/-! ## The queue -/

/-- What an operation does to the queue (10_state R41): nothing; a CKB whose comparison succeeds appends the candidate;
TAKE removes the oldest Frame; RST empties it. -/
theorem exec_queue_cases {i : Instr} {s t : State} (h : exec i s = .next t) :
    t.q = s.q ∨
      (∃ b, i = .ckb b ∧ s.held = false ∧ s.checksumMatches b = true ∧ t.q = s.q ++ [s.candidate]) ∨
      (i = .take ∧ ∃ f, s.q = f :: t.q) ∨ (i = .rst ∧ t.q = []) := by
  cases i with
  | payload b =>
    obtain ⟨-, rfl⟩ := exec_payload_next h
    exact .inl rfl
  | ckb b =>
    rcases exec_ckb_next h with ⟨-, rfl⟩ | ⟨hheld, hmatch, rfl⟩ | ⟨-, -, rfl⟩
    · exact .inl rfl
    · exact .inr (.inl ⟨b, rfl, hheld, hmatch, rfl⟩)
    · exact .inl rfl
  | take =>
    rw [exec_take_next h]
    cases hq : s.q with
    | nil => exact .inl (by simp [hq])
    | cons f fs => exact .inr (.inr (.inl ⟨rfl, f, by simp [hq]⟩))
  | rst => cases h; exact .inr (.inr (.inr ⟨rfl, rfl⟩))
  | rsvdEv code => cases h
  | _ => cases h; exact .inl rfl

end Sys2Proof.Machine
end

section
/-! PROOF. The invariants of 10_state R45 in two parts, the stores and the candidate, and that every operation the
dispatch selects keeps each part. -/

namespace Sys2Proof.Machine

/-- The clauses of the invariants that do not speak of the tag. -/
structure State.StoresOk (s : State) : Prop where
  pbufWf : s.pbuf.wf = true
  queueBound : ∀ n h, s.cfg.qcap = .slots n h → s.q.length ≤ n
  payloadBound : ∀ f ∈ s.q, f.payload.length ≤ maxLen

/-- The clauses for the candidate (10_state R45 (i) to (v)) in a state whose tag is the one given. -/
def State.CandidateOk (s : State) : Tag → Prop
  | .awaitSyncA => True
  | .awaitSyncB => True
  | .awaitClass => s.SumsOf []
  | .awaitId => s.SumsOf [s.cls]
  | .awaitLenLo => s.SumsOf [s.cls, s.mid]
  | .awaitLenHi => s.SumsOf [s.cls, s.mid, s.lenlo]
  | .awaitPayload => s.off.toNat < s.len.toNat ∧ s.Filled s.off.toNat ∧
      s.SumsOf (covered s.cls s.mid s.len (s.pbufBytes s.off.toNat))
  | .awaitChecksumA | .awaitChecksumB => s.off = s.len ∧ s.Filled s.len.toNat ∧
      s.SumsOf (covered s.cls s.mid s.len (s.pbufBytes s.len.toNat))

theorem State.Inv.storesOk {s : State} (h : s.Inv) : s.StoresOk := ⟨h.pbufWf, h.queueBound, h.payloadBound⟩

theorem State.Inv.candidateOk {s : State} (h : s.Inv) : s.CandidateOk s.tag := by
  cases htag : s.tag with
  | awaitSyncA | awaitSyncB => trivial
  | awaitClass => exact h.atClass htag
  | awaitId => exact h.atId htag
  | awaitLenLo => exact h.atLenLo htag
  | awaitLenHi => exact h.atLenHi htag
  | awaitPayload => exact h.atPayload htag
  | awaitChecksumA => exact h.atChecksum (.inl htag)
  | awaitChecksumB => exact h.atChecksum (.inr htag)

theorem State.StoresOk.inv {s : State} (hs : s.StoresOk) (hc : s.CandidateOk s.tag) : s.Inv where
  pbufWf := hs.pbufWf
  queueBound := hs.queueBound
  payloadBound := hs.payloadBound
  atClass htag := by rwa [htag] at hc
  atId htag := by rwa [htag] at hc
  atLenLo htag := by rwa [htag] at hc
  atLenHi htag := by rwa [htag] at hc
  atPayload htag := by rwa [htag] at hc
  atChecksum htag := by rcases htag with htag | htag <;> rwa [htag] at hc

/-- The invariants say nothing of the script. -/
theorem State.Inv.present {s : State} (h : s.Inv) : s.present.Inv := by
  rw [s.present_eq]
  exact State.StoresOk.inv ⟨h.pbufWf, h.queueBound, h.payloadBound⟩ h.candidateOk

/-! ## The stores -/

theorem State.hasRoom_of_not_held {s : State} (htag : s.tag = .awaitChecksumB) (h : s.held = false) : s.HasRoom := by
  intro n hn hcap
  by_contra hlt
  have hheld : s.held = true := (State.held_iff_full s).mpr ⟨htag, n, hn, hcap, by omega⟩
  exact absurd (hheld.symm.trans h) (by decide)

/-- PBUF stays in canonical form. -/
theorem exec_pbuf_wf {i : Instr} {s t : State} (hs : s.pbuf.wf = true) (h : exec i s = .next t) :
    t.pbuf.wf = true := by
  cases i with
  | payload b =>
    obtain ⟨hlt, rfl⟩ := exec_payload_next h
    exact Memory.wf_write b hs hlt
  | ckb b =>
    rcases exec_ckb_next h with ⟨-, rfl⟩ | ⟨-, -, rfl⟩ | ⟨-, -, rfl⟩
    · exact hs
    · exact Memory.wf_nil
    · exact Memory.wf_nil
  | take => rw [exec_take_next h]; exact hs
  | rst => cases h; exact Memory.wf_nil
  | rsvdEv code => cases h
  | _ => cases h; exact hs

theorem exec_cfg {i : Instr} {s t : State} (h : exec i s = .next t) : t.cfg = s.cfg := by
  rcases exec_frame h with ⟨hcfg, -, -⟩ | ⟨rfl, -, -⟩
  · exact hcfg
  · rfl

theorem State.length_candidate_payload (s : State) : s.candidate.payload.length = s.len.toNat :=
  s.length_pbufBytes s.len.toNat

/-- A Frame is appended only where there is room for it, and it has at most 65535 bytes; so every operation keeps the
clauses of the stores. -/
theorem exec_keeps_storesOk {i : Instr} {s t : State} (hckb : ∀ b, i = .ckb b → s.tag = .awaitChecksumB)
    (hs : s.StoresOk) (h : exec i s = .next t) : t.StoresOk := by
  have hcfg := exec_cfg h
  refine ⟨exec_pbuf_wf hs.pbufWf h, fun n hn hcap => ?_, fun f hf => ?_⟩
  · rw [hcfg] at hcap
    have hbound := hs.queueBound n hn hcap
    rcases exec_queue_cases h with hq | ⟨b, hi, hheld, -, hq⟩ | ⟨-, f, hq⟩ | ⟨-, hq⟩
    · rwa [hq]
    · have hroom := State.hasRoom_of_not_held (hckb b hi) hheld n hn hcap
      rw [hq, List.length_append]
      exact hroom
    · rw [hq, List.length_cons] at hbound
      omega
    · simp [hq]
  · rcases exec_queue_cases h with hq | ⟨b, -, -, -, hq⟩ | ⟨-, g, hq⟩ | ⟨-, hq⟩
    · exact hs.payloadBound f (hq ▸ hf)
    · rw [hq, List.mem_append, List.mem_singleton] at hf
      rcases hf with hf | rfl
      · exact hs.payloadBound f hf
      · have hlt := s.len.isLt
        rw [State.length_candidate_payload, maxLen]
        omega
    · exact hs.payloadBound f (hq ▸ List.mem_cons_of_mem g hf)
    · rw [hq] at hf
      cases hf

/-! ## The candidate -/

/-- The bytes of PBUF below `n` after a write at `n`. -/
theorem State.pbufBytes_write {s u : State} {n : Nat} {b : Byte} (hs : s.Filled n)
    (hu : u.pbuf = s.pbuf.write n b) : u.Filled (n + 1) ∧ u.pbufBytes (n + 1) = s.pbufBytes n ++ [b] := by
  have hbelow : ∀ i, i < n → u.pbuf.read i = s.pbuf.read i := fun i hi => by
    rw [hu, Memory.read_write_other s.pbuf b (by omega)]
  have hat : u.pbuf.read n = some b := by rw [hu, Memory.read_write_same]
  refine ⟨fun i hi => ?_, ?_⟩
  · rcases Nat.lt_succ_iff_lt_or_eq.mp hi with hi | rfl
    · rw [hbelow i hi]
      exact hs i hi
    · rw [hat]
      rfl
  · rw [State.pbufBytes_succ, State.pbufBytes_congr hs hbelow, State.pbufByte_of_read hat]

theorem toNat_add_one_of_lt {x y : Half} (h : x.toNat < y.toNat) : (x + 1).toNat = x.toNat + 1 := by
  have := y.isLt
  bv_omega

/-- The clauses for the candidate speak of the scratch registers and PBUF alone. -/
theorem State.CandidateOk.retire {s : State} (h : s.CandidateOk s.tag) (o : Output) :
    (s.retire o).CandidateOk (s.retire o).tag := h

theorem State.CandidateOk.pop {s : State} (h : s.CandidateOk s.tag) : s.pop.CandidateOk s.pop.tag := h

/-- In a hunting tag nothing is asked of the candidate. -/
theorem State.candidateOk_of_hunting {s : State} (h : s.tag = .awaitSyncA ∨ s.tag = .awaitSyncB) :
    s.CandidateOk s.tag := by
  rcases h with h | h <;> rw [h] <;> trivial

/-- With PBUF filled up to `OFF`, the clause of the payload holds while bytes are missing and that of the checksum when
none is (10_state R45 (iii), (iv)). -/
theorem State.candidateOk_of_filled {u : State} (hle : u.off.toNat ≤ u.len.toNat) (hfilled : u.Filled u.off.toNat)
    (hsums : u.SumsOf (covered u.cls u.mid u.len (u.pbufBytes u.off.toNat)))
    (htag : u.tag = if u.off = u.len then .awaitChecksumA else .awaitPayload) : u.CandidateOk u.tag := by
  rw [htag]
  split
  · next hlen =>
    rw [hlen] at hfilled hsums
    exact ⟨hlen, hfilled, hsums⟩
  · next hlen =>
    exact ⟨lt_of_le_of_ne hle fun heq => hlen (BitVec.eq_of_toNat_eq heq), hfilled, hsums⟩

theorem exec_lenhi_candidateOk {s t : State} {b : Byte} (hs : s.SumsOf [s.cls, s.mid, s.lenlo])
    (h : exec (.lenhi b) s = .next t) : t.CandidateOk t.tag := by
  cases h
  have hcovered : covered s.cls s.mid (assembleLength b s.lenlo) [] = [s.cls, s.mid, s.lenlo] ++ [b] := by
    simp [covered]
  have hsums : (s.accumulate b).SumsOf (covered s.cls s.mid (assembleLength b s.lenlo) []) :=
    hcovered ▸ hs.accumulate b
  exact State.candidateOk_of_filled (Nat.zero_le _) (fun i hi => absurd hi (Nat.not_lt_zero i)) hsums
    (if_congr eq_comm rfl rfl)

theorem exec_payload_candidateOk {s t : State} {b : Byte} (hs : s.CandidateOk .awaitPayload)
    (h : exec (.payload b) s = .next t) : t.CandidateOk t.tag := by
  obtain ⟨hlt, hfilled, hsums⟩ := hs
  obtain ⟨-, ht⟩ := exec_payload_next h
  have hoff : t.off.toNat = s.off.toNat + 1 := by
    rw [ht]
    exact toNat_add_one_of_lt hlt
  have hpbuf : t.pbuf = s.pbuf.write s.off.toNat b := by rw [ht]; rfl
  obtain ⟨hfilled', hbytes⟩ := State.pbufBytes_write hfilled hpbuf
  have hlen : t.len = s.len := by rw [ht]; rfl
  have hsums' : t.SumsOf (covered t.cls t.mid t.len (s.pbufBytes s.off.toNat ++ [b])) := by
    rw [ht]
    exact hsums.accumulate b
  refine State.candidateOk_of_filled ?_ ?_ ?_ ?_
  · rw [hoff, hlen]
    exact hlt
  · rwa [hoff]
  · rwa [hoff, hbytes]
  · rw [ht]
    rfl

/-- A byte taken in any tag: the clause of the old tag gives that of the new one (10_state R45). -/
theorem exec_inp_candidateOk {s t : State} {b : Byte} (hs : s.CandidateOk s.tag)
    (h : exec (operationOf (.event (.inp b)) s.tag) s = .next t) : t.CandidateOk t.tag := by
  cases htag : s.tag <;> rw [htag] at hs h
  case awaitSyncA =>
    rw [operationOf] at h
    split at h <;> cases h <;> trivial
  case awaitSyncB =>
    rw [operationOf] at h
    split at h
    · cases h
      exact rfl
    · cases h
      trivial
  case awaitClass => cases h; exact State.SumsOf.accumulate hs b
  case awaitId => cases h; exact State.SumsOf.accumulate hs b
  case awaitLenLo => cases h; exact State.SumsOf.accumulate hs b
  case awaitLenHi => exact exec_lenhi_candidateOk hs h
  case awaitPayload => exact exec_payload_candidateOk hs h
  case awaitChecksumA => cases h; exact hs
  case awaitChecksumB =>
    rcases exec_ckb_next h with ⟨-, rfl⟩ | ⟨-, -, rfl⟩ | ⟨-, -, rfl⟩
    · rw [htag]; exact hs
    · trivial
    · trivial

/-- The operations of the host leave the candidate as it is, RST and RSVD.TAG end it. -/
theorem exec_candidateOk {r : Request} {s t : State} (hs : s.CandidateOk s.tag)
    (h : exec (operationOf r s.tag) s = .next t) : t.CandidateOk t.tag := by
  cases r with
  | event e =>
    cases e with
    | inp b => exact exec_inp_candidateOk hs h
    | take => rw [exec_take_next h]; exact hs.pop.retire _
    | rst => cases h; trivial
    | hasPending => cases h; exact hs.retire _
    | peek => cases h; exact hs.retire _
  | upsetIn code b => cases h; trivial
  | reserved code => cases h

/-- 10_state R45 as an invariant of the step. -/
theorem step_keeps_inv {s t : State} (hs : s.Inv) (h : step s = .next t) : t.Inv := by
  rcases step_next_performs h with ⟨-, rfl⟩ | ⟨r, rest, -, hexec⟩
  · exact hs
  · have hckb : ∀ b, operationOf r s.present.tag = .ckb b → s.present.tag = .awaitChecksumB :=
      fun b hb => (eq_of_operationOf_eq_ckb hb).2
    exact (exec_keeps_storesOk hckb hs.present.storesOk hexec).inv (exec_candidateOk hs.present.candidateOk hexec)

end Sys2Proof.Machine
end

section
/-! PROOF. Noninterference of dead scratch (10_state R32): two states that look alike from outside and agree on the
scratch that is live in their tag stay so, step by step; in the hunting tags no scratch is live. -/

namespace Sys2Proof.Machine

/-! ## Agreement on what is live -/

def SameSums (s t : State) : Prop := s.accA = t.accA ∧ s.accB = t.accB

/-- The registers of a complete header, and the sums. -/
def SameHeader (s t : State) : Prop := SameSums s t ∧ s.cls = t.cls ∧ s.mid = t.mid ∧ s.len = t.len

/-- The first `n` bytes of PBUF are written in both states and are the same. -/
def SameBytes (s t : State) (n : Nat) : Prop := s.Filled n ∧ t.Filled n ∧ s.pbufBytes n = t.pbufBytes n

/-- Agreement on the scratch that is live in the tag given (10_state R32, table). -/
def SameLive (s t : State) : Tag → Prop
  | .awaitSyncA | .awaitSyncB => True
  | .awaitClass => SameSums s t
  | .awaitId => SameSums s t ∧ s.cls = t.cls
  | .awaitLenLo => SameSums s t ∧ s.cls = t.cls ∧ s.mid = t.mid
  | .awaitLenHi => SameSums s t ∧ s.cls = t.cls ∧ s.mid = t.mid ∧ s.lenlo = t.lenlo
  | .awaitPayload => SameHeader s t ∧ s.off = t.off ∧ SameBytes s t s.off.toNat
  | .awaitChecksumA => SameHeader s t ∧ SameBytes s t s.len.toNat
  | .awaitChecksumB => SameHeader s t ∧ SameBytes s t s.len.toNat ∧ s.ck1 = t.ck1

/-- Two states that no run tells apart. -/
def Alike (s t : State) : Prop := SameOutside s t ∧ SameLive s t s.tag

/-- From a next state of one of two states to an alike next state of the other. -/
def FollowsAlike (o : Host.Outcome State Fault Refusal) (s' : State) : Prop := ∃ t', o = .next t' ∧ Alike s' t'

/-! ## The shared operations -/

theorem SameSums.accumulate {s t : State} (h : SameSums s t) (x : Byte) :
    SameSums (s.accumulate x) (t.accumulate x) := by
  obtain ⟨hA, hB⟩ := h
  exact ⟨by rw [State.accumulate_accA, State.accumulate_accA, hA],
    by rw [State.accumulate_accB, State.accumulate_accB, hA, hB]⟩

theorem SameBytes.write {s t u v : State} {n : Nat} {b : Byte} (h : SameBytes s t n)
    (hu : u.pbuf = s.pbuf.write n b) (hv : v.pbuf = t.pbuf.write n b) : SameBytes u v (n + 1) := by
  obtain ⟨hs, ht, hbytes⟩ := h
  obtain ⟨hu1, hu2⟩ := State.pbufBytes_write hs hu
  obtain ⟨hv1, hv2⟩ := State.pbufBytes_write ht hv
  exact ⟨hu1, hv1, by rw [hu2, hv2, hbytes]⟩

theorem SameOutside.setTag {s t : State} (h : SameOutside s t) (g : Tag) : SameOutside (s.setTag g) (t.setTag g) := by
  obtain ⟨hcfg, -, hq, hscript, houts⟩ := h
  exact ⟨hcfg, rfl, hq, hscript, houts⟩

theorem SameOutside.retire {s t : State} (h : SameOutside s t) (o : Output) :
    SameOutside (s.retire o) (t.retire o) := by
  obtain ⟨hcfg, htag, hq, hscript, houts⟩ := h
  exact ⟨hcfg, htag, hq, congrArg List.tail hscript, congrArg (· ++ [o]) houts⟩

theorem SameOutside.push {s t : State} (h : SameOutside s t) (f : Frame) : SameOutside (s.push f) (t.push f) := by
  obtain ⟨hcfg, htag, hq, hscript, houts⟩ := h
  exact ⟨hcfg, htag, congrArg (· ++ [f]) hq, hscript, houts⟩

theorem SameOutside.pop {s t : State} (h : SameOutside s t) : SameOutside s.pop t.pop := by
  obtain ⟨hcfg, htag, hq, hscript, houts⟩ := h
  exact ⟨hcfg, htag, congrArg List.tail hq, hscript, houts⟩

/-- An accepted byte that leads to the tag `g` and leaves agreement on what is live there. -/
theorem SameOutside.alike_accept {u v : State} (h : SameOutside u v) {g : Tag} {e : Bool} (hlive : SameLive u v g) :
    Alike ((u.setTag g).accept e) ((v.setTag g).accept e) :=
  ⟨(h.setTag g).retire _, hlive⟩

theorem SameOutside.held_eq {s t : State} (h : SameOutside s t) : s.held = t.held := by
  obtain ⟨hcfg, htag, hq, -, -⟩ := h
  rw [State.held, State.held, hcfg, htag, hq]

/-! ## An accepted byte -/

/-- With PBUF the same up to `OFF`, the payload or the checksum goes on alike. -/
theorem sameLive_of_filled {u v : State} (hheader : SameHeader u v) (hoff : u.off = v.off)
    (hbytes : SameBytes u v u.off.toNat) {g : Tag}
    (hg : g = if u.off = u.len then .awaitChecksumA else .awaitPayload) : SameLive u v g := by
  rw [hg]
  split
  · next hlen => exact ⟨hheader, hlen ▸ hbytes⟩
  · exact ⟨hheader, hoff, hbytes⟩

theorem sameBytes_zero (u v : State) : SameBytes u v 0 :=
  ⟨fun i hi => absurd hi (Nat.not_lt_zero i), fun i hi => absurd hi (Nat.not_lt_zero i), rfl⟩

theorem exec_lenhi_alike {s t s' : State} {b : Byte} (ho : SameOutside s t) (hl : SameLive s t .awaitLenHi)
    (h : exec (.lenhi b) s = .next s') : FollowsAlike (exec (.lenhi b) t) s' := by
  obtain ⟨hsums, hcls, hmid, hlenlo⟩ := hl
  cases h
  refine ⟨_, rfl, ?_⟩
  rw [← hlenlo]
  refine SameOutside.alike_accept ?_ ?_
  · exact ho
  · refine sameLive_of_filled ?_ ?_ ?_ (if_congr eq_comm rfl rfl)
    · exact ⟨hsums.accumulate b, hcls, hmid, rfl⟩
    · rfl
    · exact sameBytes_zero _ _

theorem exec_payload_alike {s t s' : State} {b : Byte} (ho : SameOutside s t) (hl : SameLive s t .awaitPayload)
    (h : exec (.payload b) s = .next s') : FollowsAlike (exec (.payload b) t) s' := by
  obtain ⟨⟨hsums, hcls, hmid, hlen⟩, hoff, hbytes⟩ := hl
  obtain ⟨hlt, rfl⟩ := exec_payload_next h
  refine ⟨_, execPayload_of_lt b (hoff ▸ hlt), ?_⟩
  rw [← hlen, ← hoff]
  refine SameOutside.alike_accept ?_ (sameLive_of_filled ?_ ?_ ?_ rfl)
  · exact ho
  · exact ⟨hsums.accumulate b, hcls, hmid, rfl⟩
  · rfl
  · have hnext : (s.off + 1).toNat = s.off.toNat + 1 := toNat_add_one_of_lt (y := 65535) hlt
    rw [State.accumulate_off, hnext]
    exact hbytes.write rfl rfl

theorem exec_ckb_alike {s t s' : State} {b : Byte} (ho : SameOutside s t) (hl : SameLive s t .awaitChecksumB)
    (htag : s.tag = .awaitChecksumB)
    (h : exec (.ckb b) s = .next s') : FollowsAlike (exec (.ckb b) t) s' := by
  have hheld := ho.held_eq
  have ⟨⟨hsums, hcls, hmid, hlen⟩, ⟨_, _, hbytes⟩, hck1⟩ := hl
  have hmatch : s.checksumMatches b = t.checksumMatches b := by
    rw [State.checksumMatches, State.checksumMatches, hck1, hsums.1, hsums.2]
  have hcandidate : s.candidate = t.candidate := by
    rw [State.candidate, State.candidate, hcls, hmid, hbytes, hlen]
  rcases exec_ckb_next h with ⟨hh, rfl⟩ | ⟨hh, hm, rfl⟩ | ⟨hh, hm, rfl⟩
  · exact ⟨t, execCkb_of_held b (hheld ▸ hh), ho, htag ▸ hl⟩
  · refine ⟨_, execCkb_of_match (hheld ▸ hh) (hmatch ▸ hm), ?_⟩
    rw [← hcandidate]
    exact SameOutside.alike_accept (ho.push s.candidate) trivial
  · exact ⟨_, execCkb_of_mismatch (hheld ▸ hh) (hmatch ▸ hm), SameOutside.alike_accept ho trivial⟩

theorem exec_inp_alike {s t s' : State} {b : Byte} (hst : Alike s t)
    (h : exec (operationOf (.event (.inp b)) s.tag) s = .next s') :
    FollowsAlike (exec (operationOf (.event (.inp b)) s.tag) t) s' := by
  obtain ⟨ho, hl⟩ := hst
  cases htag : s.tag <;> rw [htag] at hl h
  case awaitSyncA =>
    by_cases hb : b = 0xB5
    · rw [operationOf, if_pos hb] at h ⊢
      cases h
      exact ⟨_, rfl, ho.alike_accept trivial⟩
    · rw [operationOf, if_neg hb] at h ⊢
      cases h
      exact ⟨_, rfl, ho.alike_accept trivial⟩
  case awaitSyncB =>
    by_cases hb : b = 0x62
    · rw [operationOf, if_pos hb] at h ⊢
      cases h
      refine ⟨_, rfl, SameOutside.alike_accept ?_ ?_⟩
      · exact ho
      · exact ⟨rfl, rfl⟩
    · rw [operationOf, if_neg hb] at h ⊢
      cases h
      exact ⟨_, rfl, ho.alike_accept trivial⟩
  case awaitClass =>
    cases h
    refine ⟨_, rfl, SameOutside.alike_accept ?_ ?_⟩
    · exact ho
    · exact ⟨SameSums.accumulate hl b, rfl⟩
  case awaitId =>
    obtain ⟨hsums, hcls⟩ := hl
    cases h
    refine ⟨_, rfl, SameOutside.alike_accept ?_ ?_⟩
    · exact ho
    · exact ⟨hsums.accumulate b, hcls, rfl⟩
  case awaitLenLo =>
    obtain ⟨hsums, hcls, hmid⟩ := hl
    cases h
    refine ⟨_, rfl, SameOutside.alike_accept ?_ ?_⟩
    · exact ho
    · exact ⟨hsums.accumulate b, hcls, hmid, rfl⟩
  case awaitLenHi => exact exec_lenhi_alike ho hl h
  case awaitPayload => exact exec_payload_alike ho hl h
  case awaitChecksumA =>
    obtain ⟨hheader, hbytes⟩ := hl
    cases h
    refine ⟨_, rfl, SameOutside.alike_accept ?_ ?_⟩
    · exact ho
    · exact ⟨hheader, hbytes, rfl⟩
  case awaitChecksumB => exact exec_ckb_alike ho hl htag h

/-! ## Any request, a step, a run -/

theorem exec_alike {r : Request} {s t s' : State} (hst : Alike s t)
    (h : exec (operationOf r s.tag) s = .next s') : FollowsAlike (exec (operationOf r s.tag) t) s' := by
  cases r with
  | event e =>
    have ⟨ho, hl⟩ := hst
    have ⟨_, _, hq, _, _⟩ := ho
    cases e with
    | inp b => exact exec_inp_alike hst h
    | take =>
      rw [exec_take_next h, hq]
      exact ⟨_, execTake_eq t, ho.pop.retire _, hl⟩
    | rst =>
      obtain ⟨hcfg, htag, -, hscript, houts⟩ := ho
      cases h
      exact ⟨_, rfl, ⟨hcfg, rfl, rfl, congrArg List.tail hscript, congrArg (· ++ [_]) houts⟩, trivial⟩
    | hasPending =>
      cases h
      rw [State.pending, hq]
      exact ⟨_, rfl, ho.retire _, hl⟩
    | peek =>
      cases h
      rw [hq]
      exact ⟨_, rfl, ho.retire _, hl⟩
  | upsetIn code b =>
    cases h
    exact ⟨_, rfl, hst.1.alike_accept trivial⟩
  | reserved code => cases h

theorem State.present_script (s : State) : s.present.script =
    if s.held then ((nextHostRequest s.script).map fun p => p.1 :: p.2).getD s.script else s.script := by
  rw [State.present]
  split
  · cases nextHostRequest s.script <;> rfl
  · rfl

theorem Alike.present {s t : State} (h : Alike s t) : Alike s.present t.present := by
  obtain ⟨ho, hl⟩ := h
  have ⟨hcfg, htag, hq, hscript, houts⟩ := ho
  have hpresent : s.present.script = t.present.script := by
    rw [State.present_script, State.present_script, ho.held_eq, hscript]
  refine ⟨⟨by simp [hcfg], by simp [htag], by simp [hq], hpresent, by simp [houts]⟩, ?_⟩
  rw [s.present_eq, t.present_eq]
  exact hl

theorem step_alike {s t s' : State} (hst : Alike s t) (h : step s = .next s') : FollowsAlike (step t) s' := by
  obtain ⟨⟨-, htag, -, hscript, -⟩, -⟩ := hst.present
  rcases step_next_performs h with ⟨hnil, rfl⟩ | ⟨r, rest, hcons, hexec⟩
  · exact ⟨t, step_of_present_nil (hscript ▸ hnil), hst⟩
  · rw [step_of_present (hscript ▸ hcons), ← htag]
    exact exec_alike hst.present hexec

theorem run_alike {s t s' : State} {n : Nat} (hst : Alike s t) (h : run n s = .next s') :
    FollowsAlike (run n t) s' := by
  induction n generalizing s t with
  | zero =>
    cases h
    exact ⟨t, rfl, hst⟩
  | succ n ih =>
    obtain ⟨u, hu, hrun⟩ := andThen_eq_next h
    obtain ⟨v, hv, huv⟩ := step_alike hst hu
    rw [run_succ_of_next n hv]
    exact ih huv hrun

/-- In a hunting tag no scratch is live. -/
theorem SameOutside.alike_of_hunting {s t : State} (h : SameOutside s t)
    (htag : s.tag = .awaitSyncA ∨ s.tag = .awaitSyncB) : Alike s t := by
  refine ⟨h, ?_⟩
  rcases htag with htag | htag <;> rw [htag] <;> trivial

end Sys2Proof.Machine

open Sys2Proof Sys2Proof.Machine

/-- Settles O50: hunting states that look alike are alike, and every run keeps them so. -/
theorem deadScratchUnobservable : Obligations.DeadScratchUnobservable := by
  intro s t s' n houtside htag hrun
  obtain ⟨t', hrun', houtside', -⟩ := run_alike (houtside.alike_of_hunting htag) hrun
  exact ⟨t', hrun', houtside'⟩

end

section
/-! PROOF. The checksum at CKB, the tag after a byte and the port view; the settlements of
O42, O7, O31, O34, O35, O18, O21, O37, O41. -/

namespace Sys2Proof.Machine

/-! ## The checksum of the candidate at CKB -/

/-- R45 (iv), (v) at CKB, and what the comparison then compares. -/
theorem State.Inv.ck_candidate {s : State} (h : s.Inv) (htag : s.tag = .awaitChecksumB) :
    ck (covered s.cls s.mid s.len (s.pbufBytes s.len.toNat)) = (s.accA, s.accB) := by
  obtain ⟨-, -, hsums⟩ := h.atChecksum (.inr htag)
  exact hsums.symm

theorem State.checksumMatches_iff_pair (s : State) (b : Byte) :
    s.checksumMatches b = true ↔ (s.accA, s.accB) = (s.ck1, b) := by
  rw [State.checksumMatches_iff, Prod.mk.injEq, eq_comm, @eq_comm _ b]

theorem State.lengthField_candidate (s : State) : lengthField s.candidate.payload = s.len := by
  rw [lengthField, State.length_candidate_payload, BitVec.ofNat_toNat, BitVec.setWidth_eq]

/-! ## The tag after an accepted byte -/

theorem assembleLength_eq_zero_iff (hi lo : Byte) : assembleLength hi lo = 0 ↔ hi.toNat * 256 + lo.toNat = 0 := by
  rw [← toNat_assembleLength]
  exact BitVec.toNat_inj.symm

/-- The tag of 10_state R23, read off the operation of each tag; at AwaitPayload by `OFF < LEN`. -/
theorem exec_inp_tag {s t : State} {b : Byte} (hready : s.held = false)
    (hpayload : s.tag = .awaitPayload → s.off.toNat < s.len.toNat)
    (h : exec (operationOf (.event (.inp b)) s.tag) s = .next t) : t.tag = tagAfter s b s.tag := by
  cases htag : s.tag <;> rw [htag] at h
  case awaitSyncA =>
    rw [operationOf] at h
    split at h
    · next hb => cases h; exact (if_pos hb).symm
    · next hb => cases h; exact (if_neg hb).symm
  case awaitSyncB =>
    rw [operationOf] at h
    split at h
    · next hb => cases h; exact (if_pos hb).symm
    · next hb => cases h; exact (if_neg hb).symm
  case awaitClass | awaitId | awaitLenLo | awaitChecksumA => cases h; rfl
  case awaitLenHi => cases h; exact if_congr (assembleLength_eq_zero_iff b s.lenlo) rfl rfl
  case awaitPayload =>
    obtain ⟨-, rfl⟩ := exec_payload_next h
    refine if_congr ?_ rfl rfl
    rw [← BitVec.toNat_inj, toNat_add_one_of_lt (hpayload htag)]
  case awaitChecksumB =>
    rcases exec_ckb_next h with ⟨hheld, -⟩ | ⟨-, -, rfl⟩ | ⟨-, -, rfl⟩
    · exact absurd (hready.symm.trans hheld) (by decide)
    · rfl
    · rfl

/-! ## The port view -/

theorem State.portsOut_of_head {s : State} {f : Frame} (h : s.q.head? = some f) (a : Half) :
    (s.portsOut a).headClass = f.cls ∧ (s.portsOut a).headId = f.id ∧
      (s.portsOut a).headLen = lengthField f.payload := by
  simp [State.portsOut, h]

/-- Only TAKE and RST move the head of a queue that has one: a new Frame goes to the other end. -/
theorem exec_queue_head {i : Instr} {s t : State} (h : exec i s = .next t) (htake : i ≠ .take) (hrst : i ≠ .rst)
    (hq : s.q ≠ []) : t.q.head? = s.q.head? := by
  rcases exec_queue_cases h with heq | ⟨b, -, -, -, heq⟩ | ⟨hi, -⟩ | ⟨hi, -⟩
  · rw [heq]
  · rw [heq, List.head?_append_of_ne_nil s.q hq]
  · exact absurd hi htake
  · exact absurd hi hrst

end Sys2Proof.Machine

open Sys2Proof Sys2Proof.Machine

/-- Settles O42: every operation the dispatch selects keeps the clauses of the stores and those of the candidate. -/
theorem stepKeepsInvariants : Obligations.StepKeepsInvariants :=
  fun _ _ hinv hstep => step_keeps_inv hinv hstep

/-- Settles O7: a step with the input ready performs the operation of the tag, whose effect on the tag is the table's. -/
theorem transitionRelation : Obligations.TransitionRelation := by
  rintro s t b rest g hinv rfl hready hscript hstep
  have hheld : s.held = false := s.inReady_eq_true_iff.mp hready
  have hexec : exec (operationOf (.event (.inp b)) s.tag) s = .next t := by
    rw [← decodeWord_dispatchWord, ← step_of_not_held hheld hscript, hstep]
  refine ⟨exec_inp_tag hheld (fun htag => (hinv.atPayload htag).1) hexec, fun htag => ?_, fun htag => ?_, ?_⟩
  · rw [htag] at hexec
    cases hexec
    rfl
  · rw [htag] at hexec
    obtain ⟨-, rfl⟩ := exec_payload_next hexec
    exact toNat_add_one_of_lt (hinv.atPayload htag).1
  · rw [exec_script_of_not_held hheld hexec, hscript, List.tail_cons]

/-- Settles O31: the port view is that of the head Frame, and a CKB appends behind it. -/
theorem headViewStable : Obligations.HeadViewStable := by
  refine ⟨fun s f fs a hq => ?_, fun i s t a h htake hrst hq => ?_⟩
  · obtain ⟨hclass, hid, hlen⟩ := State.portsOut_of_head (s := s) (f := f) (by rw [hq, List.head?_cons]) a
    refine ⟨by simp [State.portsOut, State.pending, hq], hclass, hid, hlen, fun hlt => ?_⟩
    simp [State.portsOut, State.readWindow, hq, hlt]
  · have hhead := exec_queue_head h htake hrst hq
    obtain ⟨hclass, hid, hlen⟩ := State.portsOut_of_head (List.head?_eq_some_head hq) a
    obtain ⟨hclass', hid', hlen'⟩ := State.portsOut_of_head (hhead.trans (List.head?_eq_some_head hq)) a
    exact ⟨hclass'.trans hclass.symm, hid'.trans hid.symm, hlen'.trans hlen.symm, hhead⟩

/-- Settles O34: the four cases of `exec_queue_cases`. -/
theorem queueWriters : Obligations.QueueWriters := by
  intro i s t h
  rcases exec_queue_cases h with hq | ⟨b, hi, -, hmatch, hq⟩ | htake | hrst
  · exact .inl hq
  · obtain ⟨hck1, hb⟩ := (s.checksumMatches_iff b).mp hmatch
    exact .inr (.inl ⟨b, s.candidate, hi, hck1, hb, hq⟩)
  · exact .inr (.inr (.inl htake))
  · exact .inr (.inr (.inr hrst))

/-- Settles O35: only a CKB with a match makes the queue longer, and there the sums are the candidate's checksum. -/
theorem onlyValidatedFramesEnter : Obligations.OnlyValidatedFramesEnter := by
  intro s t hinv hstep hlonger
  rcases step_next_performs hstep with ⟨-, rfl⟩ | ⟨r, rest, hscript, hexec⟩
  · exact absurd hlonger (lt_irrefl _)
  rcases exec_queue_cases hexec with hq | ⟨b, hi, hheld, hmatch, hq⟩ | ⟨-, f, hq⟩ | ⟨-, hq⟩
  · rw [hq, State.present_q] at hlonger
    exact absurd hlonger (lt_irrefl _)
  · obtain ⟨rfl, htag⟩ := eq_of_operationOf_eq_ckb hi
    have hck := hinv.present.ck_candidate htag
    rw [(s.present.checksumMatches_iff_pair b).mp hmatch] at hck
    refine ⟨b, s.present.candidate, s.present_tag ▸ htag, ?_, s.present_q ▸ hq, ?_⟩
    · rw [exec_script_of_not_held hheld hexec, hscript, List.tail_cons]
    · rw [State.lengthField_candidate, ← s.present_ck1]
      exact hck
  · rw [State.present_q] at hq
    rw [hq, List.length_cons] at hlonger
    omega
  · rw [hq] at hlonger
    cases hlonger

/-- Settles O18: the store of PAYLOAD exists below 65535 and is a write to PBUF there. -/
theorem payloadFaultsOnlyPastPbuf : Obligations.PayloadFaultsOnlyPastPbuf := by
  intro s b
  refine ⟨fun hoff => ?_, fun hlt => ?_⟩
  · exact execPayload_of_not_lt b (by rw [hoff, maxLen]; decide)
  · exact ⟨_, execPayload_of_lt b hlt, Memory.read_write_same s.pbuf s.off.toNat b,
      fun a ha => Memory.read_write_other s.pbuf b ha⟩

/-- Settles O21: the clause of the checksum, and the comparison as one of pairs. -/
theorem runningSumsEqualBatchChecksum : Obligations.RunningSumsEqualBatchChecksum := by
  intro s b hinv htag
  have hck : ck ([s.cls, s.mid, lowByte s.len, highByte s.len] ++ s.pbufBytes s.len.toNat) = (s.accA, s.accB) :=
    hinv.ck_candidate htag
  rw [hck]
  exact ⟨rfl, s.checksumMatches_iff_pair b⟩

/-- Settles O37: the fields of the reset state. -/
theorem resetValues : Obligations.ResetValues := ⟨rfl, rfl, rfl, rfl, rfl⟩

/-- Settles O41: the stores are empty and the tag is a hunting one. -/
theorem resetMeetsInvariants : Obligations.ResetMeetsInvariants :=
  State.StoresOk.inv ⟨State.reset_pbuf_wf, fun _ _ _ => Nat.zero_le _, fun _ hf => absurd hf List.not_mem_nil⟩
    (State.candidateOk_of_hunting (.inl rfl))

end

section
/-! PROOF. The encoder against the map (30_encoding R81, R82): the word of an operation is the dispatch word of a
request, every word with event code 0 is one, and the other words are read by their event code alone; the settlements
of O1, O2, O3, O6, O4. -/

namespace Sys2Proof.Machine

/-! ## The word of an operation is the dispatch word of a request -/

/-- A request and a tag with which the dispatch selects the operation. -/
def selectorOf : Instr → Request × Tag
  | .syncaHit => (.event (.inp syncA), .awaitSyncA)
  | .syncaMiss b => (.event (.inp b), .awaitSyncA)
  | .syncbHit => (.event (.inp syncB), .awaitSyncB)
  | .syncbMiss b => (.event (.inp b), .awaitSyncB)
  | .cls b => (.event (.inp b), .awaitClass)
  | .msgId b => (.event (.inp b), .awaitId)
  | .lenlo b => (.event (.inp b), .awaitLenLo)
  | .lenhi b => (.event (.inp b), .awaitLenHi)
  | .payload b => (.event (.inp b), .awaitPayload)
  | .cka b => (.event (.inp b), .awaitChecksumA)
  | .ckb b => (.event (.inp b), .awaitChecksumB)
  | .rsvdTag code b => (.upsetIn code b, .awaitSyncA)
  | .take => (.event .take, .awaitSyncA)
  | .rst => (.event .rst, .awaitSyncA)
  | .hasPending => (.event .hasPending, .awaitSyncA)
  | .peek => (.event .peek, .awaitSyncA)
  | .rsvdEv code => (.reserved code, .awaitSyncA)

theorem encodeWord_eq_dispatchWord (i : Instr) : encodeWord i = dispatchWord (selectorOf i).1 (selectorOf i).2 := by
  cases i <;> rfl

/-- A sync miss is selected because its byte is not the sync byte; every other operation is selected by its tag or its
event. -/
theorem operationOf_selectorOf {i : Instr} (h : i.wellFormed = true) :
    operationOf (selectorOf i).1 (selectorOf i).2 = i := by
  cases i with
  | syncaMiss b => exact if_neg (bne_iff_ne.mp h)
  | syncbMiss b => exact if_neg (bne_iff_ne.mp h)
  | _ => rfl

/-- An `IN` is the one request, and its tag the one tag, that selects its operation. -/
theorem selectorOf_operationOf_inp (b : Byte) (t : Tag) :
    selectorOf (operationOf (.event (.inp b)) t) = (.event (.inp b), t) := by
  cases t with
  | awaitSyncA =>
    rw [operationOf]
    split
    · next hb => rw [hb]; rfl
    · rfl
  | awaitSyncB =>
    rw [operationOf]
    split
    · next hb => rw [hb]; rfl
    · rfl
  | _ => rfl

/-- The operation tells the request. -/
theorem selectorOf_operationOf_request (r : Request) (t : Tag) : (selectorOf (operationOf r t)).1 = r := by
  cases r with
  | event e =>
    cases e with
    | inp b => rw [selectorOf_operationOf_inp]
    | _ => rfl
  | _ => rfl

theorem decodeWord_encodeWord {i : Instr} (h : i.wellFormed = true) : decodeWord (encodeWord i) = i := by
  rw [encodeWord_eq_dispatchWord, decodeWord_dispatchWord, operationOf_selectorOf h]

/-- The two bytes of a word are put together again, and bit 15 is zero. -/
theorem decode_bytesOfWord (w : DispatchWord) (rest : List Byte) :
    decode (w.setWidth 8 :: (w >>> 8).setWidth 8 :: rest) = .ok (decodeWord w, rest) := by
  have hbit15 : ((w >>> 8).setWidth 8 : Byte).getLsbD 7 = false := by simp
  have hword : (((w >>> 8).setWidth 8 : Byte).setWidth 15 <<< 8) ||| ((w.setWidth 8 : Byte).setWidth 15) = w := by
    apply BitVec.eq_of_getLsbD_eq
    intro i hi
    by_cases h8 : i < 8
    · simp [hi, h8]
    · simp [hi, h8, show i - 8 < 15 by omega, show i - 8 < 8 by omega, show 8 + (i - 8) = i by omega]
  simp only [decode, hbit15, hword, Bool.false_eq_true, if_false]

/-! ## Words with event code 0 -/

theorem Tag.ofCode_code (t : Tag) : Tag.ofCode t.code = some t := by cases t <;> rfl

theorem Tag.code_of_ofCode : ∀ (w : BitVec 4), ∀ t ∈ Tag.ofCode w, t.code = w := by decide

/-- The codes of the nine tags are 0 to 8 (10_state R22, 30_encoding R88). -/
theorem Tag.exists_code_iff (w : BitVec 4) : (∃ t : Tag, t.code = w) ↔ w.toNat ≤ 8 := by
  have hsome : ∀ w : BitVec 4, (Tag.ofCode w).isSome = true ↔ w.toNat ≤ 8 := by decide
  rw [← hsome, Option.isSome_iff_exists]
  constructor
  · rintro ⟨t, rfl⟩
    exact ⟨t, t.ofCode_code⟩
  · rintro ⟨t, ht⟩
    exact ⟨t, Tag.code_of_ofCode w t ht⟩

/-- A word with event code 0 is the dispatch word of an `IN` in the tag it names, or of an upset. -/
theorem exists_dispatchWord_eq (tag : BitVec 4) (b : Byte) :
    ∃ r t, eventCode r = 0 ∧ mkWord 0 tag b = dispatchWord r t := by
  by_cases hcode : tag.toNat ≤ 8
  · obtain ⟨t, rfl⟩ := (Tag.exists_code_iff tag).mpr hcode
    exact ⟨.event (.inp b), t, rfl, rfl⟩
  · have hreserved : ∀ tag : BitVec 4, ¬ tag.toNat ≤ 8 → ∃ code : Fin 7, BitVec.ofNat 4 (9 + code.val) = tag := by
      decide
    obtain ⟨code, rfl⟩ := hreserved tag hcode
    exact ⟨.upsetIn code b, .awaitSyncA, rfl, rfl⟩

theorem operationOf_wellFormed (r : Request) (t : Tag) : (operationOf r t).wellFormed = true := by
  cases r with
  | event e =>
    cases e with
    | inp b =>
      cases t with
      | awaitSyncA =>
        rw [operationOf]
        split
        · rfl
        · next hb => exact bne_iff_ne.mpr hb
      | awaitSyncB =>
        rw [operationOf]
        split
        · rfl
        · next hb => exact bne_iff_ne.mpr hb
      | _ => rfl
    | _ => rfl
  | _ => rfl

/-- All bits of the word of an `IN` count (30_encoding R81). -/
theorem encodeWord_operationOf {r : Request} (h : eventCode r = 0) (t : Tag) :
    encodeWord (operationOf r t) = dispatchWord r t := by
  cases r with
  | event e =>
    cases e with
    | inp b => rw [encodeWord_eq_dispatchWord, selectorOf_operationOf_inp]
    | _ => exact absurd h (by decide)
  | upsetIn code b => rfl
  | reserved code =>
    have hcode : ∀ code : Fin 3, eventCode (.reserved code) ≠ 0 := by decide
    exact absurd h (hcode code)

/-! ## The other words -/

/-- A row of format BYTE covers words with event code 0 only. -/
theorem OpRow.ev_eq_zero_of_covers {r : OpRow} (hr : r ∈ byteRows) {ev : BitVec 3} {tag : BitVec 4} {b : Byte}
    (h : r.covers (mkWord ev tag b) = true) : ev = 0 := by
  have hrows : ∀ r ∈ byteRows, r.mask &&& 0x7000#15 = 0x7000#15 ∧ r.pattern &&& 0x7000#15 = mkWord 0 0 0 := by decide
  obtain ⟨hmask, hpattern⟩ := hrows r hr
  have hcovers : mkWord ev tag b &&& r.mask = r.pattern := eq_of_beq h
  rw [← hcovers, BitVec.and_assoc, hmask, mkWord_and_hostMask] at hpattern
  rw [← evField_mkWord ev 0 0, hpattern, evField_mkWord]

/-- A row of format HOST looks at the event code only. -/
theorem OpRow.covers_mkWord_of_host {r : OpRow} (hr : r ∈ hostRows) (ev : BitVec 3) (tag : BitVec 4) (b : Byte) :
    r.covers (mkWord ev tag b) = r.covers (mkWord ev 0 0) := by
  have hrows : ∀ r ∈ hostRows, 0x7000#15 &&& r.mask = r.mask := by decide
  have hword : mkWord ev tag b &&& r.mask = mkWord ev 0 0 &&& r.mask := by
    rw [← hrows r hr, ← BitVec.and_assoc, ← BitVec.and_assoc, mkWord_and_hostMask, mkWord_and_hostMask]
  rw [OpRow.covers, OpRow.covers, hword]

/-- With an event code other than 0 the operation is that of the first row of format HOST which covers the word. -/
theorem decodeOp_mkWord_of_host {ev : BitVec 3} (h : ev ≠ 0) (tag : BitVec 4) (b : Byte) :
    decodeOp (mkWord ev tag b) = decodeOp (mkWord ev 0 0) := by
  have hrows : ∀ r ∈ operationMap, r.covers (mkWord ev tag b) = r.covers (mkWord ev 0 0) := by
    intro r hr
    rcases List.mem_append.mp hr with hbyte | hhost
    · rw [Bool.eq_false_iff.mpr fun hc => h (OpRow.ev_eq_zero_of_covers hbyte hc),
        Bool.eq_false_iff.mpr fun hc => h (OpRow.ev_eq_zero_of_covers hbyte hc)]
    · exact OpRow.covers_mkWord_of_host hhost ev tag b
  have hfind : operationMap.find? (fun r => r.covers (mkWord ev tag b)) =
      operationMap.find? (fun r => r.covers (mkWord ev 0 0)) := List.find?_congr hrows
  rw [decodeOp, decodeOp, hfind]

/-- With an event code other than 0 neither the tag nor the byte counts (30_encoding R81). -/
theorem decodeWord_mkWord_of_host {ev : BitVec 3} (h : ev ≠ 0) (tag : BitVec 4) (b : Byte) :
    decodeWord (mkWord ev tag b) = decodeWord (mkWord ev 0 0) := by
  have hhost : ∀ ev : BitVec 3, ev ≠ 0 → decodeOp (mkWord ev 0 0) ∈ hostRows.map OpRow.op := by decide
  have hbuild : ∀ op ∈ hostRows.map OpRow.op, op.build (mkWord ev tag b) = op.build (mkWord ev 0 0) := by
    simp [hostRows, Op.build]
  rw [decodeWord, decodeOp_mkWord_of_host h, hbuild _ (hhost ev h), ← decodeWord]

/-! ## The rows -/

/-- Two rows that cover one word agree on the bits that both masks hold. -/
theorem OpRow.agree_of_covers {r t : OpRow} {w : DispatchWord} (hr : r.covers w = true) (ht : t.covers w = true) :
    r.pattern &&& t.mask = t.pattern &&& r.mask := by
  have hr : w &&& r.mask = r.pattern := eq_of_beq hr
  have ht : w &&& t.mask = t.pattern := eq_of_beq ht
  rw [← hr, ← ht, BitVec.and_assoc, BitVec.and_assoc, BitVec.and_comm r.mask]

/-- The pairs of rows of the map that agree so. -/
theorem operationMap_agreeing_rows : ∀ k < operationMap.length, ∀ j < k, ∀ r ∈ operationMap[j]?,
    ∀ t ∈ operationMap[k]?, r.pattern &&& t.mask = t.pattern &&& r.mask →
      k + 1 = 2 ∨ k + 1 = 4 ∨ k + 1 = 12 ∨ k + 1 = 17 := by
  decide

end Sys2Proof.Machine

open Sys2Proof Sys2Proof.Machine

/-- Settles O1: an operation's word is the dispatch word that selects it, and its two bytes give the word again. -/
theorem decodeEncodeAgree : Obligations.DecodeEncodeAgree := by
  intro i h
  refine ⟨decodeWord_encodeWord h, fun rest => ?_⟩
  exact (decode_bytesOfWord (encodeWord i) rest).trans (by rw [decodeWord_encodeWord h])

/-- Settles O2: a word with event code 0 is a dispatch word, any other is read by its event code. -/
theorem encodeDecodeKeepsSignificantBits : Obligations.EncodeDecodeKeepsSignificantBits := by
  intro w
  rw [← mkWord_fields w]
  generalize evField w = ev
  generalize tagField w = tag
  generalize byteField w = b
  rw [evField_mkWord]
  by_cases hev : ev = 0
  · obtain ⟨r, t, hcode, hw⟩ := exists_dispatchWord_eq tag b
    rw [hev, if_pos rfl, hw, decodeWord_dispatchWord]
    exact ⟨operationOf_wellFormed r t, encodeWord_operationOf hcode t⟩
  · have hhost : ∀ ev : BitVec 3, ev ≠ 0 → (decodeWord (mkWord ev 0 0)).wellFormed = true ∧
        encodeWord (decodeWord (mkWord ev 0 0)) = mkWord ev 0 0 := by decide
    have hmask : mkWord ev tag b &&& 0x7000 = mkWord ev 0 0 := mkWord_and_hostMask ev tag b
    rw [if_neg hev, hmask, decodeWord_mkWord_of_host hev]
    exact hhost ev hev

/-- Settles O3: the last arm of `decodeOp` is never taken, and rows that share a word agree where both masks look. -/
theorem operationMapTotalAndOrdered : Obligations.OperationMapTotalAndOrdered := by
  refine ⟨fun w => List.find?_isSome.mp (decodeOp_covers w), fun j k r t w hjk hj hk hr ht => ?_⟩
  obtain ⟨hlt, -⟩ := List.getElem?_eq_some_iff.mp hk
  exact operationMap_agreeing_rows k hlt j hjk r hj t hk (OpRow.agree_of_covers hr ht)

/-- Settles O6: the map read for the word of a request. -/
theorem mapAgreesWithMatchOnTag : Obligations.MapAgreesWithMatchOnTag := decodeWord_dispatchWord

/-- Settles O4: the map is read for each of the thirteen words. -/
theorem wordsOfTheMapDecode : Obligations.WordsOfTheMapDecode := by
  unfold Obligations.WordsOfTheMapDecode
  decide

end

section
/-! PROOF. Every request of the block completes (30_encoding R85), and what a step performs for a request that is no
`IN`, during a hold too (44_queue_host R145); the settlements of O43, O38, O39. -/

namespace Sys2Proof.Machine

/-! ## Requests that complete -/

/-- No operation stops that the dispatch selects for an event of the block while the clauses for the candidate hold: a
PAYLOAD has `OFF < LEN`, so its offset exists. -/
theorem exec_completes {r : Request} {s : State} (hr : ∀ code, r ≠ .reserved code) (hs : s.CandidateOk s.tag) :
    ∃ t, exec (operationOf r s.tag) s = .next t := by
  cases h : exec (operationOf r s.tag) s with
  | next t => exact ⟨t, rfl⟩
  | fault why =>
    obtain ⟨b, hi, hlt⟩ := exec_fault h
    obtain rfl : .event (.inp b) = r := by rw [← selectorOf_operationOf_request r s.tag, hi, selectorOf]
    have htag : s.tag = .awaitPayload := by
      have hselector := selectorOf_operationOf_inp b s.tag
      rw [hi, selectorOf] at hselector
      exact (congrArg Prod.snd hselector).symm
    rw [htag] at hs
    obtain ⟨hoff, -, -⟩ := hs
    have hlen := s.len.isLt
    rw [maxLen] at hlt
    omega
  | refused why =>
    obtain ⟨code, hi⟩ := exec_refused h
    exact absurd (by rw [← selectorOf_operationOf_request r s.tag, hi, selectorOf]) (hr code)

/-! ## What stands first -/

theorem nextHostRequest_perm {rs rest : List Request} {r : Request} (h : nextHostRequest rs = some (r, rest)) :
    (r :: rest).Perm rs := by
  induction rs generalizing r rest with
  | nil => cases h
  | cons x xs ih =>
    by_cases hx : IsInput x
    · obtain ⟨b, rfl⟩ := hx
      obtain ⟨⟨r', rest'⟩, hnext, heq⟩ := Option.map_eq_some_iff.mp h
      cases heq
      exact (List.Perm.swap _ _ _).trans ((ih hnext).cons _)
    · rw [nextHostRequest_cons_of_not_isInput hx] at h
      cases h
      exact List.Perm.refl _

/-- Presenting a request keeps the requests. -/
theorem State.present_script_perm (s : State) : s.present.script.Perm s.script := by
  unfold State.present
  split
  · split
    · exact nextHostRequest_perm ‹_›
    · exact List.Perm.refl _
  · exact List.Perm.refl _

/-- A request that is no `IN` and stands first is performed, on hold or not. -/
theorem step_of_not_isInput {s : State} {r : Request} {rest : List Request} (hr : ¬ IsInput r)
    (hs : s.script = r :: rest) : step s = exec (operationOf r s.tag) s := by
  have hpresent : s.present = s := by
    cases hheld : s.held with
    | false => exact s.present_of_not_held hheld
    | true =>
      rw [State.present_of_held_overtakes (bytes := []) hheld hr hs, inputs, List.map_nil, List.nil_append, ← hs]
  rw [step_of_present (hpresent.symm ▸ hs), hpresent]

theorem dispatches_of_not_isInput {r : Request} (hr : ¬ IsInput r) (s : State) :
    Dispatches s r (operationOf r s.tag) :=
  fun _ hs => step_of_not_isInput hr hs

end Sys2Proof.Machine

open Sys2Proof Sys2Proof.Machine

/-- Settles O43: the request that stands first is one of the script, and it completes. -/
theorem noInputIsIllegal : Obligations.NoInputIsIllegal := by
  intro s hinv hscript
  cases hs : s.present.script with
  | nil => exact ⟨s, step_of_present_nil hs⟩
  | cons r rest =>
    have hr : ∀ code, r ≠ .reserved code := by
      rintro code rfl
      exact hscript code (s.present_script_perm.subset (hs ▸ List.mem_cons_self))
    rw [step_of_present hs]
    exact exec_completes hr hinv.present.candidateOk

/-- Settles O38: the codes of the tags, the request that the operation RSVD.TAG tells, and its meaning. -/
theorem reservedTagRecovers : Obligations.ReservedTagRecovers := by
  refine ⟨Tag.exists_code_iff, fun e t code b h => ?_, fun s code b => ⟨?_, rfl⟩⟩
  · rw [decodeWord_dispatchWord] at h
    have hrequest := selectorOf_operationOf_request (.event e) t
    rw [h, selectorOf] at hrequest
    cases hrequest
  · exact dispatches_of_not_isInput (by rintro ⟨b, ⟨⟩⟩) s

/-- Settles O39: a reserved event code is dispatched to RSVD.EV, which is refused. -/
theorem reservedEventRefused : Obligations.ReservedEventRefused := by
  intro s code
  exact ⟨dispatches_of_not_isInput (by rintro ⟨b, ⟨⟩⟩) s, rfl⟩

end

section
/-! PROOF. DRAIN (30_encoding R92): from a state with no request offered it is one TAKE for each Frame; with requests
offered, every round lessens the number of Frames and requests together; the settlement of O55. -/

namespace Sys2Proof.Machine

theorem not_isInput_take : ¬ IsInput (.event .take) := by rintro ⟨b, ⟨⟩⟩

/-! ## With no request offered -/

theorem takeIfPending_of_nil {s : State} (hq : s.q = []) : takeIfPending s = .next s := by
  simp [takeIfPending, State.pending, hq]

theorem takeIfPending_of_cons {s : State} {f : Frame} {fs : List Frame} (hq : s.q = f :: fs) :
    takeIfPending s = run (s.script.length + 1) (s.offer [.event .take]) := by
  simp [takeIfPending, State.pending, hq, settle]

/-- One round from a state with no request offered takes the oldest Frame and changes nothing else. -/
theorem takeIfPending_of_idle {s : State} {f : Frame} {fs : List Frame} (hq : s.q = f :: fs) (hs : s.script = []) :
    takeIfPending s = .next { s with q := fs, outs := s.outs ++ [.taken (some f)] } := by
  have hscript : (s.offer [.event .take]).script = [.event .take] := by rw [State.offer_script, hs, List.nil_append]
  have hstep : step (s.offer [.event .take]) = .next ((s.offer [.event .take]).pop.retire (.taken (some f))) :=
    (step_of_not_isInput not_isInput_take hscript).trans (execTake_of_cons hq)
  rw [takeIfPending_of_cons hq, hs, List.length_nil, run_succ_of_next 0 hstep, run]
  simp [State.offer, State.pop, State.retire, hs, hq]

theorem drainRounds_of_idle {s : State} {fs : List Frame} (hq : s.q = fs) (hs : s.script = []) :
    drainRounds fs.length s = .next { s with q := [], outs := s.outs ++ fs.map fun f => .taken (some f) } := by
  induction fs generalizing s with
  | nil =>
    rw [List.length_nil, drainRounds, List.map_nil, List.append_nil, ← hq]
  | cons f fs ih =>
    rw [List.length_cons, drainRounds, takeIfPending_of_idle hq hs, andThen_next]
    refine (ih ?_ ?_).trans ?_
    · rfl
    · exact hs
    · simp

theorem takenFrames_append (xs ys : List Output) : takenFrames (xs ++ ys) = takenFrames xs ++ takenFrames ys :=
  List.filterMap_append

theorem takenFrames_map_taken (fs : List Frame) : takenFrames (fs.map fun f => .taken (some f)) = fs := by
  simp [takenFrames, List.filterMap_map]

/-! ## With requests offered -/

/-- The Frames in the queue and the requests offered, together: the rounds of DRAIN. -/
def State.work (s : State) : Nat := s.q.length + s.script.length

theorem State.present_work (s : State) : s.present.work = s.work := by
  rw [State.work, State.present_q, State.present_script_length, State.work]

/-- A performed request leaves the script and adds at most one Frame. -/
theorem exec_work_le {i : Instr} {s t : State} (hs : s.script ≠ []) (h : exec i s = .next t) : t.work ≤ s.work := by
  rcases exec_frame h with ⟨-, hscript, -⟩ | ⟨rfl, -, -⟩
  · have hlen : t.script.length + 1 = s.script.length := by
      rw [hscript, List.length_tail]
      have := List.length_pos_iff.mpr hs
      omega
    have hq : t.q.length ≤ s.q.length + 1 := by
      rcases exec_queue_cases h with hq | ⟨b, -, -, -, hq⟩ | ⟨-, f, hq⟩ | ⟨-, hq⟩
      · rw [hq]; exact Nat.le_succ _
      · rw [hq, List.length_append, List.length_singleton]
      · rw [hq, List.length_cons]; omega
      · rw [hq]; exact Nat.zero_le _
    rw [State.work, State.work]
    omega
  · exact le_refl _

theorem step_work_le {s t : State} (h : step s = .next t) : t.work ≤ s.work := by
  rcases step_next_performs h with ⟨-, rfl⟩ | ⟨r, rest, hs, hexec⟩
  · exact le_refl _
  · rw [← s.present_work]
    exact exec_work_le (by simp [hs]) hexec

theorem run_work_le {n : Nat} {s t : State} (h : run n s = .next t) : t.work ≤ s.work := by
  induction n generalizing s with
  | zero => cases h; exact le_refl _
  | succ n ih =>
    obtain ⟨u, hstep, hrun⟩ := andThen_eq_next h
    exact (ih hrun).trans (step_work_le hstep)

/-- A script with a request that is no `IN` has a first such request. -/
theorem exists_first_host_request {rs : List Request} {x : Request} (hx : x ∈ rs) (hin : ¬ IsInput x) :
    ∃ bytes r rest, ¬ IsInput r ∧ rs = inputs bytes ++ r :: rest := by
  induction rs with
  | nil => cases hx
  | cons y ys ih =>
    by_cases hy : IsInput y
    · have hmem : x ∈ ys := (List.mem_cons.mp hx).resolve_left fun hxy => hin (hxy ▸ hy)
      obtain ⟨b, rfl⟩ := hy
      obtain ⟨bytes, r, rest, hr, rfl⟩ := ih hmem
      exact ⟨b :: bytes, r, rest, hr, rfl⟩
    · exact ⟨[], y, ys, hy, rfl⟩

/-- A request that is no `IN` keeps the machine from being stuck: a step performs one request. -/
theorem step_performs_of_host_request {s t : State} {x : Request} (hx : x ∈ s.script) (hin : ¬ IsInput x)
    (h : step s = .next t) :
    ∃ r, s.present.script = r :: t.script ∧ exec (operationOf r s.present.tag) s.present = .next t := by
  rcases step_next_performs h with ⟨hnil, -⟩ | ⟨r, rest, hs, hexec⟩
  · rw [← s.present_script_perm.mem_iff, hnil] at hx
    cases hx
  · refine ⟨r, ?_, hexec⟩
    rcases exec_frame hexec with ⟨-, hscript, -⟩ | ⟨-, hheld, b, hi⟩
    · rw [hscript, hs, List.tail_cons]
    · obtain ⟨rfl, -⟩ := eq_of_operationOf_eq_ckb hi
      obtain ⟨bytes, r, rest', hr, hscript⟩ := exists_first_host_request hx hin
      have hheld' : s.held = true := by simpa [State.held] using hheld
      rw [State.present_of_held_overtakes hheld' hr hscript] at hs
      cases hs
      exact absurd ⟨b, rfl⟩ hr

/-- A step of a state with a Frame queued and a TAKE offered keeps both, or empties the queue or takes a Frame. -/
theorem step_toward_take {s t : State} (hq : s.q ≠ []) (htake : .event .take ∈ s.script) (h : step s = .next t) :
    t.script.length + 1 = s.script.length ∧
      ((t.q ≠ [] ∧ .event .take ∈ t.script) ∨ t.work + 2 ≤ s.work) := by
  obtain ⟨r, hs, hexec⟩ := step_performs_of_host_request htake not_isInput_take h
  have hlen : t.script.length + 1 = s.script.length := by rw [← s.present_script_length, hs, List.length_cons]
  have hmem : .event .take = r ∨ .event .take ∈ t.script := by
    rwa [← List.mem_cons, ← hs, s.present_script_perm.mem_iff]
  have hpos := List.length_pos_iff.mpr hq
  have hdone (hlt : t.q.length + 1 ≤ s.q.length) : t.work + 2 ≤ s.work := by
    rw [State.work, State.work]
    omega
  have hgoes (hr : .event .take ≠ r) (hne : t.q ≠ []) : t.q ≠ [] ∧ .event .take ∈ t.script :=
    ⟨hne, hmem.resolve_left hr⟩
  refine ⟨hlen, ?_⟩
  by_cases hr : .event .take = r
  · obtain rfl := hr
    have hpop : t.q = s.q.tail := by rw [exec_take_next hexec]; simp
    refine .inr (hdone ?_)
    rw [hpop, List.length_tail]
    omega
  · rcases exec_queue_cases hexec with heq | ⟨b, -, -, -, heq⟩ | ⟨hi, -⟩ | ⟨-, heq⟩
    · exact .inl (hgoes hr (by rwa [heq, State.present_q]))
    · exact .inl (hgoes hr (by simp [heq]))
    · exact absurd (by rw [← selectorOf_operationOf_request r s.present.tag, hi, selectorOf]) hr
    · refine .inr (hdone ?_)
      rw [heq, List.length_nil]
      omega

theorem run_toward_take {n : Nat} {s t : State} (hq : s.q ≠ []) (htake : .event .take ∈ s.script)
    (hn : s.script.length ≤ n) (h : run n s = .next t) : t.work + 2 ≤ s.work := by
  induction n generalizing s with
  | zero => exact absurd hn (by have := List.length_pos_of_mem htake; omega)
  | succ n ih =>
    obtain ⟨u, hstep, hrun⟩ := andThen_eq_next h
    obtain ⟨hlen, ⟨hq', htake'⟩ | hdone⟩ := step_toward_take hq htake hstep
    · exact (ih hq' htake' (by omega) hrun).trans (step_work_le hstep)
    · have := run_work_le hrun
      omega

/-- A round from a queue that holds a Frame lessens the work: it offers one TAKE, and the work then falls by two. -/
theorem takeIfPending_work_lt {s t : State} (hq : s.q ≠ []) (h : takeIfPending s = .next t) : t.work < s.work := by
  obtain ⟨f, fs, hcons⟩ := List.exists_cons_of_ne_nil hq
  rw [takeIfPending_of_cons hcons] at h
  have hwork := run_toward_take (s := s.offer [.event .take]) hq (by simp) (by simp) h
  simp only [State.work, State.offer_q, State.offer_script, List.length_append, List.length_singleton] at hwork ⊢
  omega

theorem drainRounds_of_nil {s : State} (hq : s.q = []) (n : Nat) : drainRounds n s = .next s := by
  induction n with
  | zero => rfl
  | succ n ih => rw [drainRounds, takeIfPending_of_nil hq, andThen_next, ih]

theorem drainRounds_empties {n : Nat} {s t : State} (hn : s.work ≤ n) (h : drainRounds n s = .next t) : t.q = [] := by
  induction n generalizing s with
  | zero =>
    cases h
    exact List.length_eq_zero_iff.mp (by rw [State.work] at hn; omega)
  | succ n ih =>
    by_cases hq : s.q = []
    · rw [drainRounds_of_nil hq] at h
      cases h
      exact hq
    · obtain ⟨u, hround, hrest⟩ := andThen_eq_next h
      exact ih (by have := takeIfPending_work_lt hq hround; omega) hrest

end Sys2Proof.Machine

open Sys2Proof Sys2Proof.Machine

/-- Settles O55: one TAKE for each Frame, and rounds that lessen the work. -/
theorem drainReturnsQueueInOrder : Obligations.DrainReturnsQueueInOrder := by
  refine ⟨fun s hs => ?_, fun s t h => drainRounds_empties (le_refl _) h⟩
  have hdrain : drain s = drainRounds s.q.length s := by rw [drain, hs, List.length_nil, Nat.add_zero]
  refine ⟨_, hdrain.trans (drainRounds_of_idle rfl hs), ?_, rfl⟩
  rw [takenFrames_append, takenFrames_map_taken]

end

section
/-! PROOF. The greedy reading of a stream (30_encoding R90) as a simulation: the Frames queued, followed by the greedy
reading of the candidate's bytes so far and of the bytes still to come, stay the same while the machine takes a byte;
the settlement of O47. -/

namespace Sys2Proof.Machine

/-! ## The greedy reading, case by case -/

theorem readGreedy_succ_of_ne {a : Byte} (h : a ≠ syncA) (n : Nat) (bytes : List Byte) :
    readGreedy (n + 1) (a :: bytes) = readGreedy n bytes := if_neg h

theorem readGreedy_succ_of_lone_syncA {b : Byte} (h : b ≠ syncB) (n : Nat) (bytes : List Byte) :
    readGreedy (n + 1) (syncA :: b :: bytes) = readGreedy n bytes := if_neg h

/-- A candidate whose header is not complete. -/
theorem readGreedy_of_short_header {header : List Byte} (h : header.length < 4) (n : Nat) :
    readGreedy n (syncA :: syncB :: header) = [] := by
  cases n with
  | zero => rfl
  | succ n =>
    match header, h with
    | [], _ | [_], _ | [_, _], _ | [_, _, _], _ => rfl

/-- A candidate whose payload or checksum is not complete. -/
theorem readGreedy_of_short_body {c i lo hi : Byte} {body : List Byte}
    (h : body.length < lo.toNat + 256 * hi.toNat + 2) (n : Nat) :
    readGreedy n (syncA :: syncB :: c :: i :: lo :: hi :: body) = [] := by
  cases n with
  | zero => rfl
  | succ n =>
    have hrest : (body.drop (lo.toNat + 256 * hi.toNat)).length < 2 := by
      rw [List.length_drop]
      omega
    simp only [readGreedy, syncA, syncB, if_true]
    split
    · next hdrop => simp [hdrop] at hrest
    · rfl

/-- A complete candidate, and the bytes after it. -/
theorem readGreedy_succ_of_complete {c i lo hi : Byte} {p : List Byte} (h : p.length = lo.toNat + 256 * hi.toNat)
    (n : Nat) (a b : Byte) (rest : List Byte) :
    readGreedy (n + 1) (syncA :: syncB :: c :: i :: lo :: hi :: (p ++ a :: b :: rest)) =
      (if ck (c :: i :: lo :: hi :: p) = (a, b) then [⟨c, i, p⟩] else []) ++ readGreedy n rest := by
  simp only [readGreedy, syncA, syncB, if_true, ← h, List.drop_left, List.take_left]

/-- A body is too short for its length field, or is payload, checksum and what follows. -/
theorem short_or_complete (body : List Byte) (len : Nat) :
    body.length < len + 2 ∨ ∃ p a b rest, p.length = len ∧ body = p ++ a :: b :: rest := by
  by_cases h : body.length < len + 2
  · exact .inl h
  · match hdrop : body.drop len with
    | a :: b :: rest =>
      exact .inr ⟨body.take len, a, b, rest, by rw [List.length_take]; omega, by rw [← hdrop, List.take_append_drop]⟩
    | [_] | [] =>
      have hlen := congrArg List.length hdrop
      simp at hlen
      omega

/-- As many reads as there are bytes are enough. -/
theorem readGreedy_succ_of_length_le {n : Nat} {bytes : List Byte} (h : bytes.length ≤ n) :
    readGreedy (n + 1) bytes = readGreedy n bytes := by
  induction n generalizing bytes with
  | zero =>
    obtain rfl := List.length_eq_zero_iff.mp (Nat.le_zero.mp h)
    rfl
  | succ n ih =>
    match bytes with
    | [] => rfl
    | a :: afterA =>
      simp only [List.length_cons] at h
      by_cases ha : a = syncA
      · obtain rfl := ha
        match afterA with
        | [] => rfl
        | b :: afterB =>
          simp only [List.length_cons] at h
          by_cases hb : b = syncB
          · obtain rfl := hb
            match afterB with
            | c :: i :: lo :: hi :: body =>
              rcases short_or_complete body (lo.toNat + 256 * hi.toNat) with hshort | ⟨p, a, b, rest, hp, rfl⟩
              · rw [readGreedy_of_short_body hshort, readGreedy_of_short_body hshort]
              · simp only [List.length_cons, List.length_append] at h
                rw [readGreedy_succ_of_complete hp, readGreedy_succ_of_complete hp, ih (by omega)]
            | [] | [_] | [_, _] | [_, _, _] => rfl
          · rw [readGreedy_succ_of_lone_syncA hb, readGreedy_succ_of_lone_syncA hb, ih (by omega)]
      · rw [readGreedy_succ_of_ne ha, readGreedy_succ_of_ne ha, ih (by omega)]

theorem readGreedy_of_length_le {n : Nat} {bytes : List Byte} (h : bytes.length ≤ n) :
    readGreedy n bytes = greedyFrames bytes := by
  induction n, h using Nat.le_induction with
  | base => rfl
  | succ n hle ih => rw [readGreedy_succ_of_length_le hle, ih]

theorem greedyFrames_of_ne {a : Byte} (h : a ≠ syncA) (bytes : List Byte) :
    greedyFrames (a :: bytes) = greedyFrames bytes := readGreedy_succ_of_ne h _ _

theorem greedyFrames_of_lone_syncA {b : Byte} (h : b ≠ syncB) (bytes : List Byte) :
    greedyFrames (syncA :: b :: bytes) = greedyFrames bytes :=
  (readGreedy_succ_of_lone_syncA h _ _).trans (readGreedy_of_length_le (Nat.le_succ _))

theorem toNat_lowByte_add_highByte (n : Half) : (lowByte n).toNat + 256 * (highByte n).toNat = n.toNat := by
  have := n.isLt
  simp only [lowByte, highByte, BitVec.toNat_setWidth, BitVec.toNat_ushiftRight, Nat.shiftRight_eq_div_pow]
  omega

/-- A complete candidate is read at once, its checksum compared in batch form. -/
theorem greedyFrames_of_complete {p : List Byte} {n : Half} (h : p.length = n.toNat) (c i a b : Byte)
    (rest : List Byte) :
    greedyFrames (syncA :: syncB :: (covered c i n p ++ a :: b :: rest)) =
      (if ck (covered c i n p) = (a, b) then [⟨c, i, p⟩] else []) ++ greedyFrames rest := by
  rw [← toNat_lowByte_add_highByte] at h
  refine (readGreedy_succ_of_complete h _ a b rest).trans ?_
  rw [readGreedy_of_length_le (by simp; omega)]
  rfl

theorem greedyFrames_of_short_body {body : List Byte} {n : Half} (h : body.length < n.toNat + 2) (c i : Byte) :
    greedyFrames (syncA :: syncB :: covered c i n body) = [] :=
  readGreedy_of_short_body (by rwa [toNat_lowByte_add_highByte]) _

/-! ## The candidate in progress -/

/-- The bytes that stand for the candidate in progress: its sync bytes and what the scratch holds of it, in wire
order. -/
def State.candidateBytes (s : State) : List Byte :=
  match s.tag with
  | .awaitSyncA => []
  | .awaitSyncB => [syncA]
  | .awaitClass => [syncA, syncB]
  | .awaitId => [syncA, syncB, s.cls]
  | .awaitLenLo => [syncA, syncB, s.cls, s.mid]
  | .awaitLenHi => [syncA, syncB, s.cls, s.mid, s.lenlo]
  | .awaitPayload => syncA :: syncB :: covered s.cls s.mid s.len (s.pbufBytes s.off.toNat)
  | .awaitChecksumA => syncA :: syncB :: covered s.cls s.mid s.len (s.pbufBytes s.len.toNat)
  | .awaitChecksumB => syncA :: syncB :: (covered s.cls s.mid s.len (s.pbufBytes s.len.toNat) ++ [s.ck1])

theorem State.candidateBytes_of_filled {u : State}
    (htag : u.tag = if u.off = u.len then .awaitChecksumA else .awaitPayload) :
    u.candidateBytes = syncA :: syncB :: covered u.cls u.mid u.len (u.pbufBytes u.off.toNat) := by
  by_cases hlen : u.off = u.len
  · rw [if_pos hlen] at htag
    rw [State.candidateBytes, htag, hlen]
  · rw [if_neg hlen] at htag
    rw [State.candidateBytes, htag]

/-- A candidate in progress is not complete. -/
theorem State.CandidateOk.greedyFrames_candidateBytes {s : State} (h : s.CandidateOk s.tag) :
    greedyFrames s.candidateBytes = [] := by
  rw [State.candidateBytes]
  cases htag : s.tag <;> rw [htag] at h
  case awaitSyncA | awaitSyncB => rfl
  case awaitClass | awaitId | awaitLenLo | awaitLenHi => exact readGreedy_of_short_header (by simp) _
  case awaitPayload =>
    obtain ⟨hlt, -, -⟩ := h
    exact greedyFrames_of_short_body (by rw [State.length_pbufBytes]; omega) _ _
  case awaitChecksumA => exact greedyFrames_of_short_body (by rw [State.length_pbufBytes]; omega) _ _
  case awaitChecksumB =>
    rw [← covered_append]
    exact greedyFrames_of_short_body (by rw [List.length_append, State.length_pbufBytes]; simp) _ _

/-- What stays the same while the machine takes `b`: the Frames queued and those still to be read. -/
def KeepsReading (s t : State) (b : Byte) : Prop :=
  ∀ bytes, t.q ++ greedyFrames (t.candidateBytes ++ bytes) = s.q ++ greedyFrames (s.candidateBytes ++ b :: bytes)

/-- A byte that becomes part of the candidate. -/
theorem KeepsReading.of_extends {s t : State} {b : Byte} (hq : t.q = s.q)
    (h : t.candidateBytes = s.candidateBytes ++ [b]) : KeepsReading s t b := by
  intro bytes
  rw [hq, h, List.append_assoc, List.singleton_append]

theorem exec_syncA_keepsReading {s t : State} {b : Byte} (htag : s.tag = .awaitSyncA)
    (h : exec (operationOf (.event (.inp b)) .awaitSyncA) s = .next t) : KeepsReading s t b := by
  have hs : s.candidateBytes = [] := by rw [State.candidateBytes, htag]
  rw [operationOf] at h
  split at h
  · next hb =>
    cases h
    exact .of_extends rfl (by rw [hs, hb]; rfl)
  · next hb =>
    cases h
    intro bytes
    rw [hs]
    exact congrArg (s.q ++ ·) (greedyFrames_of_ne hb bytes).symm

theorem exec_syncB_keepsReading {s t : State} {b : Byte} (htag : s.tag = .awaitSyncB)
    (h : exec (operationOf (.event (.inp b)) .awaitSyncB) s = .next t) : KeepsReading s t b := by
  have hs : s.candidateBytes = [syncA] := by rw [State.candidateBytes, htag]
  rw [operationOf] at h
  split at h
  · next hb =>
    cases h
    exact .of_extends rfl (by rw [hs, hb]; rfl)
  · next hb =>
    cases h
    intro bytes
    rw [hs]
    exact congrArg (s.q ++ ·) (greedyFrames_of_lone_syncA hb bytes).symm

theorem exec_lenhi_keepsReading {s t : State} {b : Byte} (htag : s.tag = .awaitLenHi)
    (h : exec (.lenhi b) s = .next t) : KeepsReading s t b := by
  have hs : s.candidateBytes = [syncA, syncB, s.cls, s.mid, s.lenlo] := by rw [State.candidateBytes, htag]
  cases h
  refine .of_extends rfl ?_
  rw [State.candidateBytes_of_filled (if_congr eq_comm rfl rfl), hs]
  simp [covered, State.pbufBytes]

theorem exec_payload_keepsReading {s t : State} {b : Byte} (htag : s.tag = .awaitPayload)
    (hs : s.CandidateOk .awaitPayload) (h : exec (.payload b) s = .next t) : KeepsReading s t b := by
  obtain ⟨hlt, hfilled, -⟩ := hs
  have hbytes : s.candidateBytes = syncA :: syncB :: covered s.cls s.mid s.len (s.pbufBytes s.off.toNat) := by
    rw [State.candidateBytes, htag]
  obtain ⟨-, ht⟩ := exec_payload_next h
  have hoff : t.off.toNat = s.off.toNat + 1 := by
    rw [ht]
    exact toNat_add_one_of_lt hlt
  have hpbuf : t.pbuf = s.pbuf.write s.off.toNat b := by rw [ht]; rfl
  refine .of_extends (by rw [ht]; rfl) ?_
  rw [State.candidateBytes_of_filled (by rw [ht]; rfl), hoff, (State.pbufBytes_write hfilled hpbuf).2, covered_append,
    hbytes, ht]
  rfl

/-- CKB ends the candidate: its comparison is that of the batch checksum, and reading goes on after the byte. -/
theorem exec_ckb_keepsReading {s t : State} {b : Byte} (htag : s.tag = .awaitChecksumB)
    (hs : s.CandidateOk .awaitChecksumB) (hheld : s.held = false) (h : exec (.ckb b) s = .next t) :
    KeepsReading s t b := by
  obtain ⟨-, -, hsums⟩ := hs
  intro bytes
  have hread : greedyFrames (s.candidateBytes ++ b :: bytes) =
      (if s.checksumMatches b then [s.candidate] else []) ++ greedyFrames bytes := by
    have hbytes : s.candidateBytes ++ b :: bytes =
        syncA :: syncB :: (covered s.cls s.mid s.len (s.pbufBytes s.len.toNat) ++ s.ck1 :: b :: bytes) := by
      rw [State.candidateBytes, htag]
      simp
    rw [hbytes, greedyFrames_of_complete (s.length_pbufBytes _), ← hsums, State.candidate]
    exact congrArg (· ++ _) (if_congr (s.checksumMatches_iff_pair b).symm rfl rfl)
  rw [hread]
  rcases exec_ckb_next h with ⟨hh, -⟩ | ⟨-, hmatch, rfl⟩ | ⟨-, hmatch, rfl⟩
  · exact absurd (hheld.symm.trans hh) (by decide)
  · rw [hmatch, if_pos rfl, ← List.append_assoc]
    rfl
  · rw [hmatch]
    rfl

/-- The simulation, for a byte taken in any tag. -/
theorem exec_inp_keepsReading {s t : State} {b : Byte} (hs : s.CandidateOk s.tag) (hheld : s.held = false)
    (h : exec (operationOf (.event (.inp b)) s.tag) s = .next t) : KeepsReading s t b := by
  cases htag : s.tag <;> rw [htag] at hs h
  case awaitSyncA => exact exec_syncA_keepsReading htag h
  case awaitSyncB => exact exec_syncB_keepsReading htag h
  case awaitClass | awaitId | awaitLenLo | awaitChecksumA =>
    cases h
    exact .of_extends rfl (by rw [State.candidateBytes, State.candidateBytes, htag]; rfl)
  case awaitLenHi => exact exec_lenhi_keepsReading htag h
  case awaitPayload => exact exec_payload_keepsReading htag hs h
  case awaitChecksumB => exact exec_ckb_keepsReading htag hs hheld h

/-! ## Feeding bytes -/

theorem State.not_held_of_inf {s : State} (h : s.cfg.qcap = .inf) : s.held = false :=
  State.not_held_of_hasRoom fun n hn hcap => by rw [h] at hcap; cases hcap

/-- With an unbounded queue every byte offered is taken, and the Frames queued and still to be read stay the same. -/
theorem run_inputs_keepsReading {bytes : List Byte} {rest : List Request} {s : State} (hcap : s.cfg.qcap = .inf)
    (hs : s.CandidateOk s.tag) (hscript : s.script = inputs bytes ++ rest) :
    ∃ t, run bytes.length s = .next t ∧ t.script = rest ∧ t.CandidateOk t.tag ∧
      ∀ more, t.q ++ greedyFrames (t.candidateBytes ++ more) =
        s.q ++ greedyFrames (s.candidateBytes ++ (bytes ++ more)) := by
  induction bytes generalizing s with
  | nil => exact ⟨s, rfl, hscript, hs, fun _ => rfl⟩
  | cons b bytes ih =>
    have hheld := State.not_held_of_inf hcap
    obtain ⟨u, hexec⟩ := exec_completes (r := .event (.inp b)) (fun _ => by simp) hs
    have hstep : step s = .next u := by rw [step_of_not_held hheld hscript, decodeWord_dispatchWord, hexec]
    have hrest : u.script = inputs bytes ++ rest := by rw [exec_script_of_not_held hheld hexec, hscript]; rfl
    obtain ⟨t, hrun, htscript, ht, hread⟩ := ih (exec_cfg hexec ▸ hcap) (exec_inp_candidateOk hs hexec) hrest
    refine ⟨t, (run_succ_of_next _ hstep).trans hrun, htscript, ht, fun more => ?_⟩
    rw [hread, exec_inp_keepsReading hs hheld hexec, List.cons_append]

end Sys2Proof.Machine

open Sys2Proof Sys2Proof.Machine

/-- Settles O47: fed from reset, the machine leaves in the queue what the greedy reading of the whole stream gives, and
nothing can be read of the candidate it ends in. -/
theorem machineReadsGreedily : Obligations.MachineReadsGreedily := by
  intro bytes
  obtain ⟨t, hrun, -, ht, hread⟩ := run_inputs_keepsReading (s := { State.reset with script := inputs bytes })
    (bytes := bytes) (rest := []) rfl trivial (List.append_nil _).symm
  have hq := hread []
  rw [List.append_nil, List.append_nil, ht.greedyFrames_candidateBytes, List.append_nil] at hq
  rw [frames, ingest_of_idle bytes rfl, hrun]
  exact hq

end

section
/-! PROOF. The four sync rows (40_sync R100 to R103): an `IN` in a tag other than AwaitChecksumB is dispatched by the tag
and the byte; the settlements of O8, O9, O10, O11. -/

namespace Sys2Proof.Machine

/-- Outside AwaitChecksumB nothing is held, so the byte that stands first is performed. -/
theorem dispatches_inp {s : State} (h : s.tag ≠ .awaitChecksumB) (b : Byte) :
    Dispatches s (.event (.inp b)) (operationOf (.event (.inp b)) s.tag) := by
  intro rest hs
  rw [step_of_not_held (State.not_held_of_tag h) hs, decodeWord_dispatchWord]

theorem dispatches_inp_of_tag {s : State} {g : Tag} {b : Byte} {i : Instr} (htag : s.tag = g)
    (hg : g ≠ .awaitChecksumB) (hi : operationOf (.event (.inp b)) g = i) : Dispatches s (.event (.inp b)) i := by
  subst htag hi
  exact dispatches_inp hg b

theorem State.setTag_of_tag_eq {s : State} {g : Tag} (h : s.tag = g) : s.setTag g = s := by
  rw [← h]
  rfl

end Sys2Proof.Machine

open Sys2Proof Sys2Proof.Machine

/-- Settles O8: the byte 0xB5 in AwaitSyncA selects SYNCA.HIT, whose meaning is the stated state. -/
theorem syncAHitAdvances : Obligations.SyncAHitAdvances :=
  fun _ htag => ⟨dispatches_inp_of_tag htag (by decide) rfl, rfl⟩

/-- Settles O9: SyncLoss sets the tag to the AwaitSyncA that it already is. -/
theorem syncAMissChangesNothing : Obligations.SyncAMissChangesNothing := by
  intro s b htag hb
  refine ⟨dispatches_inp_of_tag htag (by decide) (if_neg hb), ?_⟩
  rw [exec, execSyncaMiss, State.raise_syncLoss, State.setTag_of_tag_eq htag]
  rfl

/-- Settles O10: the byte 0x62 in AwaitSyncB selects SYNCB.HIT, whose meaning is the stated state. -/
theorem syncBHitBeginsCandidate : Obligations.SyncBHitBeginsCandidate :=
  fun _ htag => ⟨dispatches_inp_of_tag htag (by decide) rfl, rfl⟩

/-- Settles O11: any other byte in AwaitSyncB selects SYNCB.MISS, whose meaning is the stated state. -/
theorem syncBMissReturnsToSyncA : Obligations.SyncBMissReturnsToSyncA :=
  fun _ _ htag hb => ⟨dispatches_inp_of_tag htag (by decide) (if_neg hb), rfl⟩

end

section
/-! PROOF. Feeding bytes: a run that takes each of them, whatever is offered after them, and how such runs are put
together (44_queue_host R150); an INGEST takes every byte or ends on hold; which answers are quiet. -/

namespace Sys2Proof.Machine

/-! ## Runs that take every byte -/

/-- Offered to `s` before anything else, the bytes are all taken, one a step, and leave `t`. The scripts of `s` and `t`
themselves play no part. -/
def Feeds (bytes : List Byte) (s t : State) : Prop :=
  ∀ rest, run bytes.length { s with script := inputs bytes ++ rest } = .next { t with script := rest }

theorem Feeds.nil (s : State) : Feeds [] s s := fun _ => rfl

theorem Feeds.append {g h : List Byte} {s t u : State} (hg : Feeds g s t) (hh : Feeds h t u) : Feeds (g ++ h) s u := by
  intro rest
  have hscript : inputs (g ++ h) ++ rest = inputs g ++ (inputs h ++ rest) := by
    rw [inputs, List.map_append, List.append_assoc]
    rfl
  rw [hscript, List.length_append, run_add_of_next _ _ (hg (inputs h ++ rest))]
  exact hh rest

/-- An operation that is not on hold reads nothing of the script, and takes one request from it. -/
theorem exec_with_script {i : Instr} {s t : State} (hheld : s.held = false) (h : exec i s = .next t)
    (rs : List Request) : exec i { s with script := rs } = .next { t with script := rs.tail } := by
  cases i with
  | payload b =>
    obtain ⟨hlt, rfl⟩ := exec_payload_next h
    exact execPayload_of_lt (s := { s with script := rs }) b hlt
  | ckb b =>
    rcases exec_ckb_next h with ⟨hh, -⟩ | ⟨-, hmatch, rfl⟩ | ⟨-, hmatch, rfl⟩
    · exact absurd (hheld.symm.trans hh) (by decide)
    · exact execCkb_of_match (s := { s with script := rs }) hheld hmatch
    · exact execCkb_of_mismatch (s := { s with script := rs }) hheld hmatch
  | take =>
    rw [exec_take_next h]
    exact execTake_eq { s with script := rs }
  | rsvdEv code => cases h
  | _ => cases h; rfl

/-- One byte, taken by the operation of the tag. -/
theorem Feeds.byte {s t : State} {b : Byte} (hheld : s.held = false)
    (h : exec (operationOf (.event (.inp b)) s.tag) s = .next t) : Feeds [b] s t := by
  intro rest
  have hstep : step { s with script := .event (.inp b) :: rest } = .next { t with script := rest } := by
    rw [step_of_not_held (s := { s with script := .event (.inp b) :: rest }) hheld rfl, decodeWord_dispatchWord]
    exact exec_with_script hheld h _
  exact run_succ_of_next 0 hstep

theorem Feeds.ingest {bytes : List Byte} {s t : State} (h : Feeds bytes s t) (hs : s.script = []) :
    ingest bytes s = .next { t with script := [] } := by
  rw [ingest_of_idle bytes hs, ← h [], List.append_nil]

/-! ## An INGEST takes every byte or ends on hold -/

theorem run_of_held_inputs {s : State} {bytes : List Byte} (h : s.held = true) (hs : s.script = inputs bytes) (n : Nat) :
    run n s = .next s := by
  induction n with
  | zero => rfl
  | succ n ih => rw [run_succ_of_next n (step_of_held_inputs h hs), ih]

/-- Once on hold, a run of bytes stays there; until then it takes them one by one. -/
theorem held_or_feeds_of_run {bytes : List Byte} {s u : State} (hs : s.script = inputs bytes)
    (h : run bytes.length s = .next u) : u.held = true ∨ (u.cfg = s.cfg ∧ Feeds bytes s u) := by
  induction bytes generalizing s with
  | nil =>
    cases h
    exact .inr ⟨rfl, Feeds.nil _⟩
  | cons b bytes ih =>
    cases hheld : s.held with
    | true =>
      rw [run_of_held_inputs hheld hs] at h
      cases h
      exact .inl hheld
    | false =>
      obtain ⟨t, hstep, hrun⟩ := andThen_eq_next h
      rw [step_of_not_held hheld hs, decodeWord_dispatchWord] at hstep
      have hscript : t.script = inputs bytes := by rw [exec_script_of_not_held hheld hstep, hs]; rfl
      refine (ih hscript hrun).imp_right fun ⟨hcfg, hfeeds⟩ => ⟨hcfg.trans (exec_cfg hstep), ?_⟩
      exact (Feeds.byte hheld hstep).append hfeeds

theorem feeds_of_ingest {bytes : List Byte} {s u : State} (hs : s.script = []) (h : ingest bytes s = .next u)
    (htag : u.tag ≠ .awaitChecksumB) : u.cfg = s.cfg ∧ Feeds bytes s u := by
  rw [ingest_of_idle bytes hs] at h
  rcases held_or_feeds_of_run rfl h with hheld | ⟨hcfg, hfeeds⟩
  · exact absurd ((State.held_iff u).mp hheld).1 htag
  · exact ⟨hcfg, hfeeds⟩

/-! ## Quiet operations -/

/-- Between `s` and `t` no Frame is queued or taken and no `ck_err` is given. -/
structure Quiet (s t : State) : Prop where
  cfg : t.cfg = s.cfg
  q : t.q = s.q
  ckErrs : ckErrCount t.outs = ckErrCount s.outs

theorem Quiet.refl (s : State) : Quiet s s := ⟨rfl, rfl, rfl⟩

theorem Quiet.trans {s t u : State} (h : Quiet s t) (h' : Quiet t u) : Quiet s u :=
  ⟨h'.cfg.trans h.cfg, h'.q.trans h.q, h'.ckErrs.trans h.ckErrs⟩

theorem ckErrCount_append_accepted (outs : List Output) (e : Bool) :
    ckErrCount (outs ++ [.accepted e]) = ckErrCount outs + e.toNat := by
  cases e <;> simp [ckErrCount, Output.ckErr]

theorem Quiet.of_accept {s u : State} (hcfg : u.cfg = s.cfg) (hq : u.q = s.q) (houts : u.outs = s.outs) :
    Quiet s (u.accept false) :=
  ⟨hcfg, hq, by rw [State.accept_outs, houts, ckErrCount_append_accepted, Bool.toNat_false, Nat.add_zero]⟩

/-- Only CKB queues a Frame or gives `ck_err` (43_checksum R135, R136). -/
theorem exec_inp_quiet {s t : State} {b : Byte} (htag : s.tag ≠ .awaitChecksumB)
    (h : exec (operationOf (.event (.inp b)) s.tag) s = .next t) : Quiet s t := by
  cases hg : s.tag <;> rw [hg] at h
  case awaitSyncA | awaitSyncB =>
    rw [operationOf] at h
    split at h <;> cases h <;> exact .of_accept rfl rfl rfl
  case awaitClass | awaitId | awaitLenLo | awaitLenHi | awaitChecksumA => cases h; exact .of_accept rfl rfl rfl
  case awaitPayload =>
    obtain ⟨-, rfl⟩ := exec_payload_next h
    exact .of_accept rfl rfl rfl
  case awaitChecksumB => exact absurd hg htag

theorem State.HasRoom.of_eq {s t : State} (h : s.HasRoom) (hcfg : t.cfg = s.cfg) (hq : t.q = s.q) : t.HasRoom := by
  rw [State.HasRoom, hcfg, hq]
  exact h

end Sys2Proof.Machine
end

section
/-! PROOF. Noise without an adjacent `B5 62` (40_sync R106 (b)): the machine hunts, and is in AwaitSyncB after an odd run
of 0xB5; the settlement of O52. -/

namespace Sys2Proof.Machine

/-! ## Hunting -/

/-- A byte that does not begin a candidate changes the tag alone. -/
theorem exec_inp_of_hunting {s : State} {b : Byte} (h : s.tag = .awaitSyncA ∨ s.tag = .awaitSyncB ∧ b ≠ syncB) :
    exec (operationOf (.event (.inp b)) s.tag) s = .next ((s.setTag (tagAfter s b s.tag)).accept false) := by
  rcases h with htag | ⟨htag, hb⟩
  · rw [htag, operationOf, tagAfter]
    split <;> rfl
  · have hmiss : ¬ b = 0x62 := hb
    rw [htag, operationOf, tagAfter, if_neg hmiss, if_neg hmiss]
    rfl

theorem feeds_byte_of_hunting {s : State} {b : Byte} (h : s.tag = .awaitSyncA ∨ s.tag = .awaitSyncB ∧ b ≠ syncB) :
    ∃ t, Feeds [b] s t ∧ Quiet s t ∧ t.tag = tagAfter s b s.tag := by
  have htag : s.tag ≠ .awaitChecksumB := by rcases h with h | ⟨h, -⟩ <;> simp [h]
  have hexec := exec_inp_of_hunting h
  exact ⟨_, .byte (State.not_held_of_tag htag) hexec, exec_inp_quiet htag hexec, rfl⟩

/-! ## The run of 0xB5 at the end -/

theorem trailingSyncA_append_syncA (g : List Byte) : trailingSyncA (g ++ [syncA]) = trailingSyncA g + 1 := by
  simp [trailingSyncA]

theorem trailingSyncA_append_of_ne {b : Byte} (h : b ≠ syncA) (g : List Byte) : trailingSyncA (g ++ [b]) = 0 := by
  simp [trailingSyncA, h]

theorem NoSyncPair.of_append {g h : List Byte} (hg : NoSyncPair (g ++ h)) : NoSyncPair g :=
  fun hpair => hg (hpair.trans (List.prefix_append g h).isInfix)

/-- A 0x62 in noise does not follow a 0xB5. -/
theorem NoSyncPair.trailingSyncA_eq_zero {g : List Byte} (h : NoSyncPair (g ++ [syncB])) : trailingSyncA g = 0 := by
  cases g using List.reverseRecOn with
  | nil => rfl
  | append_singleton g a =>
    refine trailingSyncA_append_of_ne (fun ha => h ?_) g
    rw [ha, List.append_assoc]
    exact (List.suffix_append g _).isInfix

/-- The tag in which hunting ends after a run of `n` bytes 0xB5 (40_sync R106). -/
def huntingTag (n : Nat) : Tag := if n % 2 = 1 then .awaitSyncB else .awaitSyncA

theorem tagAfter_syncA_huntingTag (s : State) (n : Nat) :
    tagAfter s syncA (huntingTag n) = huntingTag (n + 1) := by
  rcases Nat.mod_two_eq_zero_or_one n with h | h <;> simp [huntingTag, h, Nat.add_mod, tagAfter, syncA]

theorem tagAfter_huntingTag_of_ne (s : State) {b : Byte} {n : Nat} (hA : b ≠ syncA) (hB : b = syncB → n = 0) :
    tagAfter s b (huntingTag n) = .awaitSyncA := by
  rw [huntingTag]
  split
  · next hodd => exact if_neg fun hb => by simp [hB hb] at hodd
  · exact if_neg hA

/-- The tag after noise, by induction on its last byte: only a 0xB5 makes the run of 0xB5 longer. -/
theorem feeds_noise {s : State} {g : List Byte} (htag : s.tag = .awaitSyncA) (hg : NoSyncPair g) :
    ∃ t, Feeds g s t ∧ Quiet s t ∧ t.tag = huntingTag (trailingSyncA g) := by
  induction g using List.reverseRecOn with
  | nil => exact ⟨s, Feeds.nil s, Quiet.refl s, htag⟩
  | append_singleton g b ih =>
    obtain ⟨t, hfeeds, hquiet, ht⟩ := ih hg.of_append
    have hB : b = syncB → trailingSyncA g = 0 := by rintro rfl; exact hg.trailingSyncA_eq_zero
    have hhunting : t.tag = .awaitSyncA ∨ t.tag = .awaitSyncB ∧ b ≠ syncB := by
      rw [ht, huntingTag]
      split
      · next hodd => exact .inr ⟨rfl, fun hb => by simp [hB hb] at hodd⟩
      · exact .inl rfl
    obtain ⟨u, hbyte, hquiet', hu⟩ := feeds_byte_of_hunting hhunting
    refine ⟨u, hfeeds.append hbyte, hquiet.trans hquiet', hu.trans ?_⟩
    rw [ht]
    by_cases hA : b = syncA
    · rw [hA, trailingSyncA_append_syncA, tagAfter_syncA_huntingTag]
    · rw [trailingSyncA_append_of_ne hA, tagAfter_huntingTag_of_ne t hA hB]
      rfl

end Sys2Proof.Machine

open Sys2Proof Sys2Proof.Machine

/-- Settles O52: the noise is fed from a state with no request offered. -/
theorem noiseWithoutSyncPair : Obligations.NoiseWithoutSyncPair := by
  intro s g htag hs hg
  obtain ⟨t, hfeeds, hquiet, ht⟩ := feeds_noise htag hg
  exact ⟨_, hfeeds.ingest hs, hquiet.q, hquiet.ckErrs, rfl, ht⟩

end

section
/-! PROOF. A frame fed to a hunting machine (40_sync R106, 43_checksum R135): up to its last byte the bytes of the
candidate in progress are those fed so far, and CKB then compares the frame's own checksum; the settlement of O53. -/

namespace Sys2Proof.Machine

/-! ## The bytes of the candidate -/

theorem sync_covered_inj {c i c' i' : Byte} {n n' : Half} {p p' : List Byte}
    (h : syncA :: syncB :: covered c i n p = syncA :: syncB :: covered c' i' n' p') :
    c = c' ∧ i = i' ∧ n = n' ∧ p = p' := by
  simp only [covered, List.cons.injEq, true_and] at h
  obtain ⟨hc, hi, hlow, hhigh, hp⟩ := h
  refine ⟨hc, hi, BitVec.eq_of_toNat_eq ?_, hp⟩
  rw [← toNat_lowByte_add_highByte, hlow, hhigh, toNat_lowByte_add_highByte]

theorem State.candidateBytes_of_checksumB {s : State} (htag : s.tag = .awaitChecksumB) :
    s.candidateBytes = syncA :: syncB :: covered s.cls s.mid s.len (s.pbufBytes s.len.toNat ++ [s.ck1]) := by
  rw [State.candidateBytes, htag]
  rfl

/-- Before CKB a byte extends the candidate, where it is the sync byte that is waited for. -/
theorem exec_inp_extends {s t : State} {b : Byte} (hs : s.CandidateOk s.tag) (hckb : s.tag ≠ .awaitChecksumB)
    (hA : s.tag = .awaitSyncA → b = syncA) (hB : s.tag = .awaitSyncB → b = syncB)
    (h : exec (operationOf (.event (.inp b)) s.tag) s = .next t) : t.candidateBytes = s.candidateBytes ++ [b] := by
  cases htag : s.tag <;> rw [htag] at hs h
  case awaitSyncA =>
    obtain rfl := hA htag
    cases h
    rw [State.candidateBytes, State.candidateBytes, htag]
    rfl
  case awaitSyncB =>
    obtain rfl := hB htag
    cases h
    rw [State.candidateBytes, State.candidateBytes, htag]
    rfl
  case awaitClass | awaitId | awaitLenLo | awaitChecksumA =>
    cases h
    rw [State.candidateBytes, State.candidateBytes, htag]
    rfl
  case awaitLenHi =>
    cases h
    rw [State.candidateBytes_of_filled (if_congr eq_comm rfl rfl), State.candidateBytes, htag]
    simp [covered, State.pbufBytes]
  case awaitPayload =>
    obtain ⟨hlt, hfilled, -⟩ := hs
    obtain ⟨-, ht⟩ := exec_payload_next h
    have hoff : t.off.toNat = s.off.toNat + 1 := by rw [ht]; exact toNat_add_one_of_lt hlt
    have hpbuf : t.pbuf = s.pbuf.write s.off.toNat b := by rw [ht]; rfl
    rw [State.candidateBytes_of_filled (by rw [ht]; rfl), hoff, (State.pbufBytes_write hfilled hpbuf).2,
      State.candidateBytes, htag, ht]
    rfl
  case awaitChecksumB => exact absurd htag hckb

/-- The bytes of a frame up to its first checksum byte become the bytes of the candidate. -/
theorem feeds_candidate {s : State} {c i : Byte} {n : Half} {p bytes : List Byte} (hs : s.CandidateOk s.tag)
    (hp : p.length = n.toNat + 1) (hbytes : s.candidateBytes ++ bytes = syncA :: syncB :: covered c i n p) :
    ∃ t, Feeds bytes s t ∧ Quiet s t ∧ t.CandidateOk t.tag ∧ t.candidateBytes = syncA :: syncB :: covered c i n p := by
  induction bytes generalizing s with
  | nil => exact ⟨s, Feeds.nil s, Quiet.refl s, hs, by rw [← hbytes, List.append_nil]⟩
  | cons b bytes ih =>
    have hckb : s.tag ≠ .awaitChecksumB := by
      intro htag
      rw [State.candidateBytes_of_checksumB htag] at hbytes
      obtain ⟨-, -, hlen, hpayload⟩ := sync_covered_inj hbytes
      have hlength : (s.pbufBytes s.len.toNat ++ [s.ck1] ++ b :: bytes).length = p.length := congrArg _ hpayload
      simp only [List.length_append, State.length_pbufBytes, List.length_cons, hlen] at hlength
      omega
    have hA : s.tag = .awaitSyncA → b = syncA := by
      intro htag
      rw [State.candidateBytes, htag] at hbytes
      exact (List.cons.inj hbytes).1
    have hB : s.tag = .awaitSyncB → b = syncB := by
      intro htag
      rw [State.candidateBytes, htag] at hbytes
      exact (List.cons.inj (List.cons.inj hbytes).2).1
    obtain ⟨t, hexec⟩ := exec_completes (r := .event (.inp b)) (fun _ => by simp) hs
    have hextends := exec_inp_extends hs hckb hA hB hexec
    obtain ⟨u, hfeeds, hquiet, hu, hubytes⟩ := ih (exec_inp_candidateOk hs hexec)
      (by rw [hextends, List.append_assoc, List.singleton_append, hbytes])
    exact ⟨u, (Feeds.byte (State.not_held_of_tag hckb) hexec).append hfeeds, (exec_inp_quiet hckb hexec).trans hquiet,
      hu, hubytes⟩

/-- A candidate that holds one byte more than its payload waits for CKB. -/
theorem State.CandidateOk.at_checksumB {s : State} {c i a : Byte} {n : Half} {p : List Byte} (hs : s.CandidateOk s.tag)
    (hp : p.length = n.toNat) (hbytes : s.candidateBytes = syncA :: syncB :: covered c i n (p ++ [a])) :
    s.tag = .awaitChecksumB ∧ s.candidate = ⟨c, i, p⟩ ∧ s.ck1 = a ∧ (s.accA, s.accB) = ck (covered c i n p) := by
  rw [State.candidateBytes] at hbytes
  cases htag : s.tag <;> rw [htag] at hs hbytes
  case awaitSyncA | awaitSyncB | awaitClass | awaitId | awaitLenLo | awaitLenHi => simp [covered] at hbytes
  case awaitPayload =>
    obtain ⟨-, -, hlen, hpayload⟩ := sync_covered_inj hbytes
    obtain ⟨hlt, -, -⟩ := hs
    have hlength := congrArg List.length hpayload
    simp only [List.length_append, State.length_pbufBytes, List.length_singleton] at hlength
    rw [hlen] at hlt
    omega
  case awaitChecksumA =>
    obtain ⟨-, -, hlen, hpayload⟩ := sync_covered_inj hbytes
    have hlength := congrArg List.length hpayload
    simp only [List.length_append, State.length_pbufBytes, List.length_singleton, hlen] at hlength
    omega
  case awaitChecksumB =>
    obtain ⟨-, -, hsums⟩ := hs
    rw [← covered_append] at hbytes
    obtain ⟨rfl, rfl, rfl, hpayload⟩ := sync_covered_inj hbytes
    obtain ⟨rfl, hck1⟩ := List.append_inj' hpayload rfl
    exact ⟨rfl, rfl, List.singleton_injective hck1, hsums⟩

/-! ## CKB -/

/-- What the last byte of a candidate leaves, by the outcome of the comparison. -/
theorem feeds_ckb {s : State} {b : Byte} (htag : s.tag = .awaitChecksumB) (hroom : s.HasRoom) :
    ∃ t, Feeds [b] s t ∧ t.tag = .awaitSyncA ∧ t.cfg = s.cfg ∧
      t.q = s.q ++ (if (s.accA, s.accB) = (s.ck1, b) then [s.candidate] else []) ∧
      ckErrCount t.outs = ckErrCount s.outs + if (s.accA, s.accB) = (s.ck1, b) then 0 else 1 := by
  have hheld := State.not_held_of_hasRoom hroom
  have hbyte {t : State} (h : execCkb b s = .next t) : Feeds [b] s t := .byte hheld (by rw [htag]; exact h)
  by_cases hmatch : (s.accA, s.accB) = (s.ck1, b)
  · have hexec := execCkb_of_match hheld ((s.checksumMatches_iff_pair b).mpr hmatch)
    refine ⟨_, hbyte hexec, rfl, rfl, ?_, ?_⟩
    · rw [if_pos hmatch]
      rfl
    · rw [if_pos hmatch]
      exact ckErrCount_append_accepted s.outs false
  · have hexec := execCkb_of_mismatch hheld
      (Bool.eq_false_iff.mpr fun hm => hmatch ((s.checksumMatches_iff_pair b).mp hm))
    refine ⟨_, hbyte hexec, rfl, rfl, ?_, ?_⟩
    · rw [if_neg hmatch, List.append_nil]
      rfl
    · rw [if_neg hmatch]
      exact ckErrCount_append_accepted s.outs true

/-! ## The frame -/

theorem toNat_lengthField {p : List Byte} (hp : p.length ≤ 65535) : (lengthField p).toNat = p.length := by
  rw [lengthField, BitVec.toNat_ofNat]
  omega

/-- A hunting machine with room takes a frame whole, queues it when its checksum bytes are right, gives one `ck_err` when
they are not, and hunts again. -/
theorem feeds_frameBytes {s : State} {p : List Byte} (htag : s.tag = .awaitSyncA) (hroom : s.HasRoom)
    (hp : p.length ≤ 65535) (c i a b : Byte) :
    ∃ t, Feeds (frameBytes c i p a b) s t ∧ t.tag = .awaitSyncA ∧ t.cfg = s.cfg ∧
      t.q = s.q ++ (if ck (covered c i (lengthField p) p) = (a, b) then [⟨c, i, p⟩] else []) ∧
      ckErrCount t.outs = ckErrCount s.outs + if ck (covered c i (lengthField p) p) = (a, b) then 0 else 1 := by
  have hlen := toNat_lengthField hp
  have hidle : s.candidateBytes = [] := by rw [State.candidateBytes, htag]
  obtain ⟨u, hfeeds, hquiet, hu, hbytes⟩ := feeds_candidate (s := s) (c := c) (i := i) (n := lengthField p)
    (p := p ++ [a]) (State.candidateOk_of_hunting (.inl htag)) (by rw [hlen, List.length_append]; rfl)
    (by rw [hidle]; rfl)
  obtain ⟨hckb, hcandidate, hck1, hsums⟩ := hu.at_checksumB hlen.symm hbytes
  obtain ⟨t, hbyte, ht, hcfg, hq, herrs⟩ := feeds_ckb (b := b) hckb (hroom.of_eq hquiet.cfg hquiet.q)
  rw [hsums, hck1, hcandidate, hquiet.q] at hq
  rw [hsums, hck1, hquiet.ckErrs] at herrs
  have hframe : frameBytes c i p a b = (syncA :: syncB :: covered c i (lengthField p) (p ++ [a])) ++ [b] := by
    simp [frameBytes, covered]
  exact ⟨t, hframe ▸ hfeeds.append hbyte, ht, hcfg.trans hquiet.cfg, hq, herrs⟩

/-- The frame's sync bytes are lost on a machine that has just taken a 0xB5 (40_sync R106 (c)). -/
theorem feeds_syncPair_of_syncB {s : State} (htag : s.tag = .awaitSyncB) :
    ∃ t, Feeds [syncA, syncB] s t ∧ Quiet s t ∧ t.tag = .awaitSyncA := by
  obtain ⟨t, hmiss, hquiet, ht⟩ := feeds_byte_of_hunting (b := syncA) (.inr ⟨htag, by decide⟩)
  have ht' : t.tag = .awaitSyncA := by rw [ht, htag]; rfl
  obtain ⟨u, hmiss', hquiet', hu⟩ := feeds_byte_of_hunting (b := syncB) (.inl ht')
  exact ⟨u, hmiss.append hmiss', hquiet.trans hquiet', by rw [hu, ht']; rfl⟩

end Sys2Proof.Machine

open Sys2Proof Sys2Proof.Machine

/-- Settles O53: noise that ends in a hunting tag has been taken whole, so the frame, or its sync bytes, are fed to the
state it ends in. -/
theorem frameAfterNoise : Obligations.FrameAfterNoise := by
  intro s u g c i p _ hroom hs hp hg hq
  refine ⟨fun htag => ?_, fun htag => ?_⟩
  · obtain ⟨hcfg, hfeeds⟩ := feeds_of_ingest hs hg (by simp [htag])
    obtain ⟨t, hframe, ht, -, hqueued, -⟩ := feeds_frameBytes htag (hroom.of_eq hcfg hq) hp c i _ _
    rw [if_pos rfl, hq] at hqueued
    exact ⟨_, (hfeeds.append hframe).ingest hs, hqueued, ht⟩
  · obtain ⟨-, hfeeds⟩ := feeds_of_ingest hs hg (by simp [htag])
    obtain ⟨t, hpair, hquiet, ht⟩ := feeds_syncPair_of_syncB htag
    exact ⟨_, (hfeeds.append hpair).ingest hs, hquiet.q.trans hq, ht⟩

end

section
/-! PROOF. The four header rows (41_header R110 to R114): the sums and the length as numbers, the header of one candidate
fed as four bytes (R115); the settlements of O12, O13, O14, O15, O16. -/

namespace Sys2Proof.Machine

/-! ## The registers as numbers -/

theorem byte_add_eq_ofNat (x y : Byte) : x + y = BitVec.ofNat 8 ((x.toNat + y.toNat) % 256) :=
  BitVec.eq_of_toNat_eq (by simp [BitVec.toNat_add])

/-- `acc(b)` with the sums written as numbers modulo 256 (43_checksum R131). -/
theorem State.accumulate_eq_ofNat (s : State) (b : Byte) : s.accumulate b = { s with
    accA := BitVec.ofNat 8 ((s.accA.toNat + b.toNat) % 256)
    accB := BitVec.ofNat 8 ((s.accB.toNat + (s.accA.toNat + b.toNat) % 256) % 256) } := by
  have hA := byte_add_eq_ofNat s.accA b
  have hB := byte_add_eq_ofNat s.accB (s.accA + b)
  rw [BitVec.toNat_add] at hB
  rw [State.accumulate, ckStep, hB, hA]

theorem assembleLength_eq_ofNat (hi lo : Byte) : assembleLength hi lo = BitVec.ofNat 16 (lo.toNat + 256 * hi.toNat) := by
  have := hi.isLt
  have := lo.isLt
  refine BitVec.eq_of_toNat_eq ?_
  rw [toNat_assembleLength, BitVec.toNat_ofNat]
  omega

/-- The tag after LENHI, by the length as a number (41_header R114). -/
theorem tag_of_assembleLength (hi lo : Byte) :
    (if assembleLength hi lo = 0 then Tag.awaitChecksumA else .awaitPayload) =
      if lo.toNat + 256 * hi.toNat > 0 then .awaitPayload else .awaitChecksumA := by
  rw [← ite_not]
  exact if_congr (by rw [assembleLength_eq_zero_iff]; omega) rfl rfl

/-! ## The header of one candidate -/

/-- Outside AwaitChecksumB a byte is taken by the operation of the tag. -/
theorem Feeds.byte_of_tag {s t : State} {g : Tag} {b : Byte} (htag : s.tag = g) (hg : g ≠ .awaitChecksumB)
    (h : exec (operationOf (.event (.inp b)) g) s = .next t) : Feeds [b] s t := by
  subst htag
  exact .byte (State.not_held_of_tag hg) h

/-- From AwaitClass four bytes are taken as class, id and the two halves of the length, and each enters the sums. -/
theorem feeds_header {s : State} (htag : s.tag = .awaitClass) (c i l h : Byte) :
    ∃ t, Feeds [c, i, l, h] s t ∧ t.cls = c ∧ t.mid = i ∧ t.len = assembleLength h l ∧ t.off = 0 ∧
      (t.accA, t.accB) = [c, i, l, h].foldl ckStep (s.accA, s.accB) := by
  have hclass := Feeds.byte_of_tag (b := c) htag (by decide) rfl
  have hid := hclass.append (.byte_of_tag (g := .awaitId) (b := i) rfl (by decide) rfl)
  have hlenlo := hid.append (.byte_of_tag (g := .awaitLenLo) (b := l) rfl (by decide) rfl)
  have hlenhi := hlenlo.append (.byte_of_tag (g := .awaitLenHi) (b := h) rfl (by decide) rfl)
  exact ⟨_, hlenhi, rfl, rfl, rfl, rfl, rfl⟩

/-- The checksum of the four header bytes, as numbers (41_header R115). -/
theorem toNat_ck_header (c i l h : Byte) :
    (ck [c, i, l, h]).1.toNat = (c.toNat + i.toNat + l.toNat + h.toNat) % 256 ∧
      (ck [c, i, l, h]).2.toNat = (4 * c.toNat + 3 * i.toNat + 2 * l.toNat + h.toNat) % 256 := by
  simp only [ck, List.foldl_cons, List.foldl_nil, ckStep, zero_add, BitVec.toNat_add]
  omega

end Sys2Proof.Machine

open Sys2Proof Sys2Proof.Machine

/-- Settles O12: CLASS is selected by the tag, and its meaning is the stated state once the sums are read as numbers. -/
theorem classStoresAndSums : Obligations.ClassStoresAndSums := by
  intro s b htag
  refine ⟨dispatches_inp_of_tag htag (by decide) rfl, ?_, fun hA hB => ⟨_, rfl, ?_, ?_⟩⟩
  · rw [exec, execCls, State.accumulate_eq_ofNat]
    rfl
  · simp [hA]
  · simp [hA, hB]

/-- Settles O13: ID is selected by the tag, and its meaning is the stated state once the sums are read as numbers. -/
theorem idStoresAndSums : Obligations.IdStoresAndSums := by
  intro s b htag
  refine ⟨dispatches_inp_of_tag htag (by decide) rfl, ?_⟩
  rw [exec, execMsgId, State.accumulate_eq_ofNat]
  rfl

/-- Settles O14: LENLO is selected by the tag, and its meaning is the stated state once the sums are read as numbers. -/
theorem lenLoStoresAndSums : Obligations.LenLoStoresAndSums := by
  intro s b htag
  refine ⟨dispatches_inp_of_tag htag (by decide) rfl, ?_⟩
  rw [exec, execLenlo, State.accumulate_eq_ofNat]
  rfl

/-- Settles O15: LENHI is selected by the tag; the length it assembles and the tag it sets are read as numbers, and the
dead LENLO is the free value drawn. -/
theorem lenHiAssemblesLength : Obligations.LenHiAssemblesLength := by
  intro s b htag
  refine ⟨dispatches_inp_of_tag htag (by decide) rfl, Config.freeByte .lenlo s.draw, s.draw + 1, ?_⟩
  rw [exec, execLenhi, tag_of_assembleLength, State.accumulate_eq_ofNat, assembleLength_eq_ofNat]
  rfl

/-- Settles O16: the four bytes are fed to the four operations, whose sums start at (0, 0) as those of `ck` do. -/
theorem headerClosedForm : Obligations.HeaderClosedForm := by
  intro s c i l h rest htag hA hB hs
  obtain ⟨t, hfeeds, hcls, hmid, hlen, hoff, hsums⟩ := feeds_header htag c i l h
  rw [hA, hB] at hsums
  obtain ⟨hckA, hckB⟩ := Prod.ext_iff.mp hsums
  obtain ⟨hsumA, hsumB⟩ := toNat_ck_header c i l h
  have hrun := hfeeds rest
  rw [← hs] at hrun
  refine ⟨_, hrun, hcls, hmid, ?_, hoff, hsums, ?_, ?_, rfl⟩
  · rw [hlen, toNat_assembleLength]
    omega
  · rw [← hsumA]; exact congrArg _ hckA
  · rw [← hsumB]; exact congrArg _ hckB

end

section
/-! PROOF. The payload row (42_payload R120, R123): the offset, the sums and the tag as numbers; the payload of one
candidate fed byte by byte, after which the candidate is complete up to its checksum; the settlements of O17, O19. -/

namespace Sys2Proof.Machine

/-! ## The offset as a number -/

theorem half_add_one_eq_ofNat (x : Half) : x + 1 = BitVec.ofNat 16 (x.toNat + 1) :=
  BitVec.eq_of_toNat_eq (by simp [BitVec.toNat_add])

/-- The tag after PAYLOAD, by the incremented offset as a number (42_payload R120). -/
theorem tag_of_next_offset {off len : Half} (h : off.toNat < len.toNat) :
    (if off + 1 = len then Tag.awaitChecksumA else .awaitPayload) =
      if off.toNat + 1 = len.toNat then .awaitChecksumA else .awaitPayload :=
  if_congr (by rw [← BitVec.toNat_inj, toNat_add_one_of_lt h]) rfl rfl

/-- An offset below some length exists in PBUF. -/
theorem toNat_lt_maxLen_of_lt {off len : Half} (h : off.toNat < len.toNat) : off.toNat < maxLen := by
  have := len.isLt
  rw [maxLen]
  omega

/-! ## The payload of one candidate -/

/-- Where PBUF is filled, what is listed there is what it reads as. -/
theorem State.Filled.read_eq {s : State} {n i : Nat} (h : s.Filled n) (hi : i < n) :
    s.pbuf.read i = (s.pbufBytes n)[i]? := by
  obtain ⟨v, hv⟩ := Option.isSome_iff_exists.mp (h i hi)
  rw [hv, State.pbufBytes, List.getElem?_map, List.getElem?_range hi, Option.map_some, State.pbufByte_of_read hv]

/-- The payload bytes that are still missing are taken one by one, and the last of them leads to AwaitChecksumA. -/
theorem feeds_payload {s : State} {p : List Byte} (hs : s.CandidateOk s.tag)
    (htag : s.tag = if s.off = s.len then .awaitChecksumA else .awaitPayload)
    (hp : s.off.toNat + p.length = s.len.toNat) :
    ∃ t, Feeds p s t ∧ Quiet s t ∧ t.tag = .awaitChecksumA ∧ t.CandidateOk .awaitChecksumA ∧
      t.candidateBytes = s.candidateBytes ++ p := by
  induction p generalizing s with
  | nil =>
    rw [if_pos (BitVec.eq_of_toNat_eq hp)] at htag
    exact ⟨s, Feeds.nil s, Quiet.refl s, htag, htag ▸ hs, (List.append_nil _).symm⟩
  | cons b p ih =>
    rw [List.length_cons] at hp
    have hlt : s.off.toNat < s.len.toNat := by omega
    rw [if_neg fun hoff => Nat.ne_of_lt hlt (congrArg BitVec.toNat hoff)] at htag
    have hckb : s.tag ≠ .awaitChecksumB := by simp [htag]
    obtain ⟨u, hexec⟩ := exec_completes (r := .event (.inp b)) (fun _ => by simp) hs
    have hpayload : exec (.payload b) s = .next u := by rwa [htag] at hexec
    obtain ⟨-, hu⟩ := exec_payload_next hpayload
    have hnext : u.off.toNat + p.length = u.len.toNat := by
      have hoff : u.off.toNat = s.off.toNat + 1 := by rw [hu]; exact toNat_add_one_of_lt hlt
      have hlen : u.len = s.len := by rw [hu]; rfl
      rw [hoff, hlen]
      omega
    have hextends := exec_inp_extends hs hckb (by simp [htag]) (by simp [htag]) hexec
    obtain ⟨t, hfeeds, hquiet, ht, htok, hbytes⟩ := ih (exec_inp_candidateOk hs hexec) (by rw [hu]; rfl) hnext
    refine ⟨t, (Feeds.byte (State.not_held_of_tag hckb) hexec).append hfeeds,
      (exec_inp_quiet hckb hexec).trans hquiet, ht, htok, ?_⟩
    rw [hbytes, hextends, List.append_assoc, List.singleton_append]

end Sys2Proof.Machine

open Sys2Proof Sys2Proof.Machine

/-- Settles O17: below `LEN` the offset exists in PBUF, so PAYLOAD stores; offset, sums and tag are then read as
numbers. -/
theorem payloadStoresAtOffset : Obligations.PayloadStoresAtOffset := by
  intro s b htag hlt
  refine ⟨dispatches_inp_of_tag htag (by decide) rfl, s.pbuf.write s.off.toNat b, ?_,
    Memory.read_write_same s.pbuf s.off.toNat b, fun a ha => Memory.read_write_other s.pbuf b ha⟩
  rw [exec, execPayload_of_lt b (toNat_lt_maxLen_of_lt hlt), tag_of_next_offset hlt, half_add_one_eq_ofNat,
    State.accumulate_eq_ofNat]
  rfl

/-- Settles O19: the candidate begins with an empty payload; its bytes after the run are those of the header and `p`,
which fixes the registers and PBUF, and the clause of AwaitChecksumA gives the sums. -/
theorem payloadFillsBufferInOrder : Obligations.PayloadFillsBufferInOrder := by
  intro s p rest htag hoff hlen hp hsums hs
  have hzero : s.off.toNat = 0 := by rw [hoff]; rfl
  have hstart : s.tag = if s.off = s.len then .awaitChecksumA else .awaitPayload := by
    have hpos := List.length_pos_iff.mpr hp
    rw [htag, if_neg fun h => by rw [h] at hzero; omega]
  have hempty : s.pbufBytes s.off.toNat = [] := by rw [hzero]; rfl
  have hok : s.CandidateOk s.tag :=
    State.candidateOk_of_filled (by omega) (fun i hi => by omega) (by rwa [hempty]) hstart
  obtain ⟨t, hfeeds, hquiet, ht, ⟨htoff, hfilled, htsums⟩, hbytes⟩ := feeds_payload hok hstart (p := p) (by omega)
  have hcovered : t.candidateBytes = syncA :: syncB :: covered t.cls t.mid t.len (t.pbufBytes t.len.toNat) := by
    rw [State.candidateBytes, ht]
  rw [hcovered, State.candidateBytes_of_filled hstart, hempty] at hbytes
  obtain ⟨hcls, hmid, htlen, hpayload : t.pbufBytes t.len.toNat = p⟩ := sync_covered_inj hbytes
  rw [hcls, hmid, hpayload, htlen] at htsums
  have hread : ∀ i, i < p.length → t.pbuf.read i = p[i]? := fun i hi => by
    rw [hfilled.read_eq (by rwa [htlen, hlen]), hpayload]
  have hrun := hfeeds rest
  rw [← hs] at hrun
  exact ⟨_, hrun, ht, htoff, htlen, hpayload, hread, htsums, hquiet.q, rfl⟩

end

section
/-! PROOF. The checksum function in closed form (43_checksum R130, R132) and what it catches (R137); the settlements of
O20, O22. -/

namespace Sys2Proof.Machine

/-! ## The fold of the rounds -/

/-- The bytes weighted `m`, `m - 1`, ..., 1, where `m` is their number (43_checksum R132 (2)). -/
def weightedSum (bytes : List Byte) : Nat := (bytes.zipIdx.map fun p => (bytes.length - p.2) * p.1.toNat).sum

theorem weightedSum_cons (x : Byte) (bytes : List Byte) :
    weightedSum (x :: bytes) = (bytes.length + 1) * x.toNat + weightedSum bytes := by
  rw [weightedSum, List.zipIdx_cons', List.map_cons, List.map_map, List.sum_cons, List.length_cons]
  simp [weightedSum, Function.comp_def]

theorem toNat_sum (bytes : List Byte) : bytes.sum.toNat = (bytes.map BitVec.toNat).sum % 256 := by
  induction bytes with
  | nil => rfl
  | cons x bytes ih => rw [List.sum_cons, BitVec.toNat_add, ih, List.map_cons, List.sum_cons, Nat.add_mod_mod]

/-- The first sum adds the bytes to where it starts. -/
theorem foldl_ckStep_fst (bytes : List Byte) (p : Byte × Byte) : (bytes.foldl ckStep p).1 = p.1 + bytes.sum := by
  induction bytes generalizing p with
  | nil => exact (add_zero _).symm
  | cons x bytes ih => rw [List.foldl_cons, ih, List.sum_cons, ckStep, add_assoc]

/-- The second sum adds the start of the first once a round, and each byte once in its own round and every later one. -/
theorem foldl_ckStep_snd (bytes : List Byte) (p : Byte × Byte) : (bytes.foldl ckStep p).2 =
    p.2 + BitVec.ofNat 8 bytes.length * p.1 + BitVec.ofNat 8 (weightedSum bytes) := by
  induction bytes generalizing p with
  | nil => simp [weightedSum]
  | cons x bytes ih =>
    have hweight : BitVec.ofNat 8 (weightedSum (x :: bytes)) =
        (BitVec.ofNat 8 bytes.length + 1) * x + BitVec.ofNat 8 (weightedSum bytes) := by
      rw [weightedSum_cons, BitVec.ofNat_add, BitVec.ofNat_mul, BitVec.ofNat_add, BitVec.ofNat_toNat,
        BitVec.setWidth_eq]
      rfl
    have hlength : BitVec.ofNat 8 (x :: bytes).length = BitVec.ofNat 8 bytes.length + 1 := BitVec.ofNat_add ..
    rw [List.foldl_cons, ih, hweight, hlength, ckStep]
    ring

theorem ck_append (g h : List Byte) : ck (g ++ h) = h.foldl ckStep (ck g) := List.foldl_append

theorem ck_fst (bytes : List Byte) : (ck bytes).1 = bytes.sum :=
  (foldl_ckStep_fst bytes (0, 0)).trans (zero_add _)

/-- Three rounds whose bytes differ by +1, -2, +1: the differences add up to 0, and so do 3, 2, 1 times them. -/
theorem foldl_ckStep_second_difference (p : Byte × Byte) (x y z : Byte) :
    [x, y, z].foldl ckStep p = [x + 1, y - 2, z + 1].foldl ckStep p := by
  simp only [List.foldl_cons, List.foldl_nil, ckStep, Prod.mk.injEq]
  constructor
  · ring
  · ring

end Sys2Proof.Machine

open Sys2Proof Sys2Proof.Machine

/-- Settles O20: the two sums of the fold that starts at (0, 0). -/
theorem checksumClosedForm : Obligations.ChecksumClosedForm := by
  intro bytes
  refine ⟨by rw [ck_fst, toNat_sum], ?_⟩
  have hB : (ck bytes).2 = BitVec.ofNat 8 (weightedSum bytes) := by
    rw [ck, foldl_ckStep_snd, mul_zero, zero_add, zero_add]
  rw [hB, BitVec.toNat_ofNat]
  rfl

/-- Settles O22: the first sum is a sum of all bytes, so one byte can be cancelled; the three changed rounds leave both
sums as they were, and the rounds after them are the same. -/
theorem whatTheChecksumCatches : Obligations.WhatTheChecksumCatches := by
  refine ⟨fun before after x y hne heq => hne ?_, fun before after x y z => ?_⟩
  · rw [ck_fst, ck_fst, List.sum_append, List.sum_append, List.sum_cons, List.sum_cons] at heq
    exact add_right_cancel (add_left_cancel heq)
  · have hrounds := foldl_ckStep_second_difference (ck before) x y z
    rw [ck_append, ck_append]
    exact congrArg (fun p => after.foldl ckStep p) hrounds

end

section
/-! PROOF. The two checksum rows (43_checksum R134, R135), which operation gives `ck_err` (R136), and one candidate from
SYNCB.HIT to AwaitChecksumB (R133); the settlements of O57, O23, O24, O25, O26. -/

namespace Sys2Proof.Machine

/-! ## CKB -/

theorem dispatches_ckb {s : State} (htag : s.tag = .awaitChecksumB) (hroom : s.HasRoom) (b : Byte) :
    Dispatches s (.event (.inp b)) (.ckb b) := by
  intro rest hs
  rw [step_of_not_held (State.not_held_of_hasRoom hroom) hs, decodeWord_dispatchWord, htag]
  rfl

/-- What is listed below `n` in PBUF is what the first `n` bytes hold. -/
theorem State.getElem?_pbufBytes_of_read {s : State} {n i : Nat} {v : Byte} (hi : i < n)
    (h : s.pbuf.read i = some v) : (s.pbufBytes n)[i]? = some v := by
  rw [State.pbufBytes, List.getElem?_map, List.getElem?_range hi, Option.map_some, State.pbufByte_of_read h]

/-! ## `ck_err` -/

theorem ckErrCount_append_of_not_ckErr {o : Output} (h : o.ckErr = false) (outs : List Output) :
    ckErrCount (outs ++ [o]) = ckErrCount outs := by
  simp [ckErrCount, h]

/-- An operation gives no `ck_err`, or is a CKB, not on hold, whose comparison fails. -/
theorem exec_ckErr_cases {i : Instr} {s t : State} (h : exec i s = .next t) :
    ckErrCount t.outs = ckErrCount s.outs ∨
      ∃ b, i = .ckb b ∧ s.held = false ∧ s.checksumMatches b = false ∧
        t = (s.discardScratch.setTag .awaitSyncA).accept true := by
  cases i with
  | payload b =>
    obtain ⟨-, rfl⟩ := exec_payload_next h
    exact .inl (ckErrCount_append_of_not_ckErr rfl s.outs)
  | ckb b =>
    rcases exec_ckb_next h with ⟨-, rfl⟩ | ⟨-, -, rfl⟩ | ⟨hheld, hmatch, ht⟩
    · exact .inl rfl
    · exact .inl (ckErrCount_append_of_not_ckErr rfl s.outs)
    · exact .inr ⟨b, rfl, hheld, hmatch, ht⟩
  | take =>
    rw [exec_take_next h]
    exact .inl (ckErrCount_append_of_not_ckErr rfl s.outs)
  | rsvdEv code => cases h
  | _ => cases h; exact .inl (ckErrCount_append_of_not_ckErr rfl s.outs)

end Sys2Proof.Machine

open Sys2Proof Sys2Proof.Machine

/-- Settles O57: a machine in AwaitSyncB holds the one byte 0xB5 of a candidate, whatever its scratch; the bytes offered
make it a candidate that waits for CKB, and the clause of that tag gives the rest. -/
theorem candidateSumsFromSyncB : Obligations.CandidateSumsFromSyncB := by
  intro s c i a p rest htag hp hs
  have hlen := toNat_lengthField hp
  have hbegun : s.candidateBytes = [syncA] := by rw [State.candidateBytes, htag]
  obtain ⟨t, hfeeds, hquiet, htok, hbytes⟩ := feeds_candidate (s := s) (c := c) (i := i) (n := lengthField p)
    (p := p ++ [a]) (State.candidateOk_of_hunting (.inr htag)) (by rw [hlen, List.length_append]; rfl)
    (by rw [hbegun]; rfl)
  obtain ⟨ht, hcandidate, hck1, -⟩ := htok.at_checksumB hlen.symm hbytes
  rw [ht] at htok
  obtain ⟨hoff, -, hsums⟩ := htok
  obtain ⟨hcls, hmid, hpayload⟩ := Frame.mk.inj hcandidate
  have hrun := hfeeds rest
  rw [covered_append, ← hs] at hrun
  have hsteps : (syncB :: (covered c i (lengthField p) p ++ [a])).length = p.length + 6 := by simp [covered]
  rw [hsteps] at hrun
  exact ⟨_, hrun, ht, rfl, hquiet.q, hcls, hmid, by rw [← hpayload, State.length_pbufBytes], hoff, hck1, hpayload,
    hsums⟩

/-- Settles O23: CKA is selected by the tag, and its meaning is the stated state. -/
theorem ckaOnlyStores : Obligations.CkaOnlyStores :=
  fun _ _ htag => ⟨dispatches_inp_of_tag htag (by decide) rfl, rfl⟩

/-- Settles O24: with room nothing is held, and the Frame appended is the candidate. -/
theorem ckbMatchPublishesFrame : Obligations.CkbMatchPublishesFrame := by
  intro s b htag hroom hck1 hb
  have hmatch := (s.checksumMatches_iff b).mpr ⟨hck1, hb⟩
  exact ⟨dispatches_ckb htag hroom b, s.discardScratch, s.candidate,
    execCkb_of_match (State.not_held_of_hasRoom hroom) hmatch, rfl, rfl, s.length_candidate_payload,
    fun _ _ hi hread => State.getElem?_pbufBytes_of_read hi hread⟩

/-- Settles O25: with room nothing is held, and the scratch is discarded. -/
theorem ckbMismatchEmitsCkErr : Obligations.CkbMismatchEmitsCkErr := by
  intro s b htag hroom hne
  have hmismatch := Bool.eq_false_iff.mpr (mt (s.checksumMatches_iff b).mp hne)
  exact ⟨dispatches_ckb htag hroom b, s.discardScratch,
    execCkb_of_mismatch (State.not_held_of_hasRoom hroom) hmismatch⟩

/-- Settles O26: the second case of `exec_ckErr_cases`, in which one answer with `ck_err` is added. -/
theorem ckErrOnlyFromFailingCkb : Obligations.CkErrOnlyFromFailingCkb := by
  intro i s t h hchanged
  rcases exec_ckErr_cases h with hsame | ⟨b, hi, hheld, hmismatch, rfl⟩
  · exact absurd hsame hchanged
  · exact ⟨ckErrCount_append_accepted s.outs true, rfl, b, hi, s.inReady_eq_true_iff.mpr hheld,
      mt (s.checksumMatches_iff b).mpr (Bool.eq_false_iff.mp hmismatch)⟩

end

section
/-! PROOF. Offering bytes behind the requests that stand in the script (44_queue_host R150, R151): while a request is
left, a step is the same with them and without them; where a run of all requests ends; the settlements of O44, O58. -/

namespace Sys2Proof.Machine

/-! ## A step with bytes offered behind -/

theorem nextHostRequest_append_inputs (rs : List Request) (bytes : List Byte) :
    nextHostRequest (rs ++ inputs bytes) = (nextHostRequest rs).map fun p => (p.1, p.2 ++ inputs bytes) := by
  induction rs with
  | nil => exact nextHostRequest_inputs bytes
  | cons r rs ih =>
    by_cases hr : IsInput r
    · obtain ⟨b, rfl⟩ := hr
      change (nextHostRequest (rs ++ inputs bytes)).map _ = ((nextHostRequest rs).map _).map _
      rw [ih, Option.map_map, Option.map_map]
      rfl
    · rw [List.cons_append, nextHostRequest_cons_of_not_isInput hr, nextHostRequest_cons_of_not_isInput hr]
      rfl

theorem State.present_offer_inputs (s : State) (bytes : List Byte) :
    (s.offer (inputs bytes)).present = s.present.offer (inputs bytes) := by
  have hheld : (s.offer (inputs bytes)).held = s.held := rfl
  rw [State.present, hheld, State.offer_script, nextHostRequest_append_inputs, State.present]
  cases s.held with
  | false => rfl
  | true => cases nextHostRequest s.script <;> rfl

/-- The outcome with bytes offered behind. -/
def offerAfter (bytes : List Byte) (o : Host.Outcome State Fault Refusal) : Host.Outcome State Fault Refusal :=
  andThen o fun t => .next (t.offer (inputs bytes))

/-- An operation takes the first request and reads nothing of those behind it. -/
theorem exec_inputs_behind (i : Instr) (s : State) (r : Request) (rest : List Request) (bytes : List Byte) :
    exec i { s with script := r :: (rest ++ inputs bytes) } =
      offerAfter bytes (exec i { s with script := r :: rest }) := by
  cases i with
  | payload b =>
    by_cases hlt : s.off.toNat < maxLen
    · have hexec (rs : List Request) := execPayload_of_lt (s := { s with script := rs }) b hlt
      rw [exec, exec, hexec, hexec]
      rfl
    · have hexec (rs : List Request) := execPayload_of_not_lt (s := { s with script := rs }) b hlt
      rw [exec, exec, hexec, hexec]
      rfl
  | ckb b =>
    cases hheld : s.held with
    | true =>
      have hexec (rs : List Request) := execCkb_of_held (s := { s with script := rs }) b hheld
      rw [exec, exec, hexec, hexec]
      rfl
    | false =>
      cases hmatch : s.checksumMatches b with
      | true =>
        have hexec (rs : List Request) := execCkb_of_match (s := { s with script := rs }) hheld hmatch
        rw [exec, exec, hexec, hexec]
        rfl
      | false =>
        have hexec (rs : List Request) := execCkb_of_mismatch (s := { s with script := rs }) hheld hmatch
        rw [exec, exec, hexec, hexec]
        rfl
  | take =>
    rw [exec, exec, execTake_eq, execTake_eq]
    rfl
  | _ => rfl

theorem step_offer {s : State} (hs : s.script ≠ []) (bytes : List Byte) :
    step (s.offer (inputs bytes)) = offerAfter bytes (step s) := by
  cases hp : s.present.script with
  | nil => exact absurd (List.length_eq_zero_iff.mp (by rw [← s.present_script_length, hp]; rfl)) hs
  | cons r rest =>
    have heq : s.present = { s with script := r :: rest } := hp ▸ s.present_eq
    have hfirst : (s.offer (inputs bytes)).present.script = r :: (rest ++ inputs bytes) := by
      rw [State.present_offer_inputs, State.offer_script, hp, List.cons_append]
    rw [step_of_present hfirst, step_of_present hp, State.present_offer_inputs, heq]
    exact exec_inputs_behind _ s r rest bytes

/-! ## Where a run of all requests ends -/

/-- The machine is stuck on hold with bytes only, or a step performs one request of the script. -/
theorem step_stuck_or_performs {s t : State} (hs : s.script ≠ []) (h : step s = .next t) :
    (s.held = true ∧ ∀ r ∈ s.script, IsInput r) ∨ t.script.length + 1 = s.script.length := by
  by_cases hall : ∀ r ∈ s.script, IsInput r
  · cases hheld : s.held with
    | true => exact .inl ⟨rfl, hall⟩
    | false =>
      obtain ⟨r, rest, hcons⟩ := List.exists_cons_of_ne_nil hs
      rw [step_of_not_held hheld hcons] at h
      rw [exec_script_of_not_held hheld h, hcons]
      exact .inr rfl
  · push Not at hall
    obtain ⟨x, hx, hin⟩ := hall
    obtain ⟨r, hfirst, -⟩ := step_performs_of_host_request hx hin h
    rw [← s.present_script_length, hfirst]
    exact .inr rfl

theorem step_script_length_le {s t : State} (h : step s = .next t) : s.script.length ≤ t.script.length + 1 := by
  by_cases hs : s.script = []
  · simp [hs]
  · rcases step_stuck_or_performs hs h with ⟨hheld, hall⟩ | hlen
    · obtain ⟨bytes, hs⟩ := exists_inputs_of_forall_isInput hall
      cases (step_of_held_inputs hheld hs).symm.trans h
      exact Nat.le_succ _
    · exact hlen.ge

/-- Nothing is left of the script, or a full queue holds the bytes that are. -/
def State.Settled (s : State) : Prop := s.script = [] ∨ (s.held = true ∧ ∀ r ∈ s.script, IsInput r)

theorem State.Settled.run_eq {s : State} (h : s.Settled) (n : Nat) : run n s = .next s := by
  rcases h with hs | ⟨hheld, hall⟩
  · induction n with
    | zero => rfl
    | succ n ih => rw [run_succ_of_next n (step_of_empty hs), ih]
  · obtain ⟨bytes, hs⟩ := exists_inputs_of_forall_isInput hall
    exact run_of_held_inputs hheld hs n

theorem settled_of_settle {s t : State} (h : settle s = .next t) : t.Settled := by
  rw [settle] at h
  induction hn : s.script.length generalizing s with
  | zero =>
    rw [hn] at h
    cases h
    exact .inl (List.length_eq_zero_iff.mp hn)
  | succ n ih =>
    rw [hn] at h
    obtain ⟨u, hstep, hrun⟩ := andThen_eq_next h
    rcases step_stuck_or_performs (List.ne_nil_of_length_eq_add_one hn) hstep with hstuck | hlen
    · have hsettled : s.Settled := .inr hstuck
      cases (hsettled.run_eq _).symm.trans h
      exact hsettled
    · have hu : u.script.length = n := by omega
      exact ih (by rw [hu, hrun]) hu

/-! ## INGEST of two chunks -/

theorem run_offer {n : Nat} {s : State} (hn : n ≤ s.script.length) (bytes : List Byte) :
    run n (s.offer (inputs bytes)) = offerAfter bytes (run n s) := by
  induction n generalizing s with
  | zero => rfl
  | succ n ih =>
    rw [run, run, step_offer (List.length_pos_iff.mp (Nat.zero_lt_of_lt hn))]
    cases hstep : step s with
    | next t => exact ih (by have := step_script_length_le hstep; omega)
    | fault why => rfl
    | refused why => rfl

theorem run_add (m n : Nat) (s : State) : run (m + n) s = andThen (run m s) (run n) := by
  induction m generalizing s with
  | zero => rw [Nat.zero_add, run, andThen_next]
  | succ m ih =>
    rw [Nat.add_right_comm, run, run]
    cases step s with
    | next t => exact ih t
    | fault why => rfl
    | refused why => rfl

/-- A settled machine may be given more steps than it has requests. -/
theorem run_offer_of_settled {s : State} (h : s.Settled) (bytes : List Byte) :
    run bytes.length (s.offer (inputs bytes)) = settle (s.offer (inputs bytes)) := by
  rcases h with hs | ⟨hheld, hall⟩
  · simp [settle, hs, inputs]
  · have hall' : ∀ r ∈ (s.offer (inputs bytes)).script, IsInput r := by
      intro r hr
      rcases List.mem_append.mp hr with hr | hr
      · exact hall r hr
      · obtain ⟨b, -, rfl⟩ := List.mem_map.mp hr
        exact ⟨b, rfl⟩
    have hsettled : (s.offer (inputs bytes)).Settled := .inr ⟨hheld, hall'⟩
    rw [settle, hsettled.run_eq, hsettled.run_eq]

theorem settle_offer (s : State) (bytes : List Byte) :
    settle (s.offer (inputs bytes)) = andThen (settle s) fun t => settle (t.offer (inputs bytes)) := by
  have hlen : (s.offer (inputs bytes)).script.length = s.script.length + bytes.length := by simp [inputs]
  rw [settle, hlen, run_add, run_offer le_rfl, ← settle]
  cases h : settle s with
  | next t => exact run_offer_of_settled (settled_of_settle h) bytes
  | fault why => rfl
  | refused why => rfl

theorem ingest_append (g h : List Byte) (s : State) : ingest (g ++ h) s = andThen (ingest g s) (ingest h) := by
  cases g with
  | nil => rfl
  | cons b g =>
    cases h with
    | nil =>
      rw [List.append_nil]
      cases ingest (b :: g) s <;> rfl
    | cons x h =>
      have hoffer : s.offer (inputs (b :: g ++ x :: h)) = (s.offer (inputs (b :: g))).offer (inputs (x :: h)) := by
        simp [State.offer, inputs]
      rw [List.cons_append, ingest, ← List.cons_append, hoffer, settle_offer]
      rfl

end Sys2Proof.Machine

open Sys2Proof Sys2Proof.Machine

/-- Settles O44, by induction on the chunks: an INGEST of two chunks is one after the other. -/
theorem chunkBoundaryInvariance : Obligations.ChunkBoundaryInvariance := by
  intro chunks
  induction chunks with
  | nil => exact fun s => rfl
  | cons chunk chunks ih =>
    intro s
    rw [List.flatten_cons, ingest_append, ingestChunks, funext ih]

/-- Settles O58: an INGEST of some bytes performs as many steps as there are requests, and such a run ends settled. -/
theorem ingestAcceptsAllUnlessHeld : Obligations.IngestAcceptsAllUnlessHeld := by
  intro s t bytes hbytes h
  obtain ⟨b, bytes, rfl⟩ := List.exists_cons_of_ne_nil hbytes
  exact (settled_of_settle h).imp_right fun ⟨hheld, hall⟩ => ⟨t.inReady_eq_false_iff.mpr hheld, hall⟩

end

section
/-! PROOF. Frames fed to a hunting machine (44_queue_host R152 to R154), by the lemma for one frame and, for a stream, by
its greedy reading; the settlements of O45, O46, O48. -/

namespace Sys2Proof.Machine

/-- A well-formed frame at the head of a stream is read first. -/
theorem greedyFrames_wire_append {p : List Byte} (hp : p.length ≤ 65535) (c i : Byte) (rest : List Byte) :
    greedyFrames (wire c i p ++ rest) = ⟨c, i, p⟩ :: greedyFrames rest := by
  have hbytes : wire c i p ++ rest = syncA :: syncB :: (covered c i (lengthField p) p ++
      (ck (covered c i (lengthField p) p)).1 :: (ck (covered c i (lengthField p) p)).2 :: rest) := by
    simp [wire, frameBytes]
  rw [hbytes, greedyFrames_of_complete (toNat_lengthField hp).symm, if_pos rfl, List.singleton_append]

end Sys2Proof.Machine

open Sys2Proof Sys2Proof.Machine

/-- Settles O45: chunk boundaries do not matter, and the frame carries its own checksum. -/
theorem framingRoundTrip : Obligations.FramingRoundTrip := by
  intro s c i p chunks htag hroom hs hp hchunks
  obtain ⟨t, hfeeds, ht, -, hq, herrs⟩ := feeds_frameBytes htag hroom hp c i _ _
  rw [if_pos rfl] at hq herrs
  rw [chunkBoundaryInvariance, hchunks]
  exact ⟨_, hfeeds.ingest hs, hq, herrs, ht, rfl⟩

/-- Settles O46: the first frame leaves the queue as it is, so there is room for the second. -/
theorem corruptedFrameThenGoodFrame : Obligations.CorruptedFrameThenGoodFrame := by
  intro s c i p a b c2 i2 p2 htag hroom hs hp hp2 hwrong
  obtain ⟨t, hfirst, ht, hcfg, hq, herrs⟩ := feeds_frameBytes htag hroom hp c i a b
  rw [if_neg hwrong.symm, List.append_nil] at hq
  rw [if_neg hwrong.symm] at herrs
  obtain ⟨u, hsecond, hu, -, hq2, herrs2⟩ := feeds_frameBytes ht (hroom.of_eq hcfg hq) hp2 c2 i2 _ _
  rw [if_pos rfl, hq] at hq2
  rw [if_pos rfl, herrs] at herrs2
  exact ⟨_, (hfirst.append hsecond).ingest hs, hq2, herrs2, hu, rfl⟩

/-- Settles O48: the machine reads greedily, and the greedy reading takes one well-formed frame after the other. -/
theorem framesOfWellFormedStream : Obligations.FramesOfWellFormedStream := by
  intro fs hfs
  rw [machineReadsGreedily]
  induction fs with
  | nil => rfl
  | cons f fs ih =>
    obtain ⟨hf, hfs⟩ := List.forall_mem_cons.mp hfs
    rw [List.map_cons, List.flatten_cons, greedyFrames_wire_append hf, ih hfs]

end

section
/-! PROOF. The queue and the host (44_queue_host R145 to R149): the hold of a full queue, what lifts it, and the meanings
of TAKE, HAS_PENDING and PEEK; the settlements of O27, O28, O29, O30, O32, O33. -/

namespace Sys2Proof.Machine

theorem State.held_of_full {s : State} (htag : s.tag = .awaitChecksumB) (hfull : s.Full) : s.held = true :=
  s.held_iff_full.mpr ⟨htag, hfull⟩

/-- A queue within its bound has room once its oldest Frame is gone: a positive QCAP means a full queue is not empty. -/
theorem State.hasRoom_pop {s : State} (hbound : ∀ n h, s.cfg.qcap = .slots n h → s.q.length ≤ n) : s.pop.HasRoom := by
  intro n hn hcap
  have hle := hbound n hn hcap
  rw [State.pop_q, List.length_tail]
  omega

theorem State.q_ne_nil_of_held {s : State} (h : s.held = true) : s.q ≠ [] := by
  obtain ⟨-, n, hn, -, hle⟩ := s.held_iff_full.mp h
  exact List.length_pos_iff.mp (by omega)

theorem not_isInput_hasPending : ¬ IsInput (.event .hasPending) := by rintro ⟨b, ⟨⟩⟩

theorem not_isInput_peek : ¬ IsInput (.event .peek) := by rintro ⟨b, ⟨⟩⟩

theorem State.pending_eq (s : State) : s.pending = decide (0 < s.q.length) := by
  cases hq : s.q <;> simp [State.pending, hq]

theorem execPeek_of_head {s : State} {head : Option Frame} (h : s.q.head? = head) :
    execPeek s = .next (s.retire (.peeked (head.map Frame.view))) := by rw [execPeek, h]

end Sys2Proof.Machine

open Sys2Proof Sys2Proof.Machine

/-- Settles O27: on hold means a full queue at AwaitChecksumB, which CKB and a run of bytes leave as it is. -/
theorem fullQueueHoldsInput : Obligations.FullQueueHoldsInput := by
  refine ⟨fun s b htag hfull => ?_, fun s htag hfull hall n => ?_, fun s hready => ?_, fun s hcap => ?_⟩
  · have hheld := State.held_of_full htag hfull
    exact ⟨s.inReady_eq_false_iff.mpr hheld, execCkb_of_held b hheld⟩
  · obtain ⟨bytes, hs⟩ := exists_inputs_of_forall_isInput hall
    exact run_of_held_inputs (State.held_of_full htag hfull) hs n
  · exact s.held_iff_full.mp (s.inReady_eq_false_iff.mp hready)
  · exact s.inReady_eq_true_iff.mpr (State.not_held_of_inf hcap)

/-- Settles O28: TAKE makes room, RST leaves AwaitChecksumB, and the others change neither tag nor queue. -/
theorem onlyTakeOrResetLiftsHold : Obligations.OnlyTakeOrResetLiftsHold := by
  refine ⟨fun s t hinv hready h => ?_, fun s t h => ?_, fun s t i b hready hi h => ?_⟩
  · obtain ⟨f, fs, hq⟩ := List.exists_cons_of_ne_nil (State.q_ne_nil_of_held (s.inReady_eq_false_iff.mp hready))
    have hroom : s.pop.held = false := State.not_held_of_hasRoom (State.hasRoom_pop hinv.queueBound)
    rw [exec_take_next h]
    exact ⟨State.inReady_eq_true_iff _ |>.mpr hroom, by simp [hq], rfl⟩
  · cases h
    rfl
  · rcases hi with rfl | rfl | rfl
    · cases h
      exact hready
    · cases h
      exact hready
    · cases (execCkb_of_held b (s.inReady_eq_false_iff.mp hready)).symm.trans h
      exact hready

/-- Settles O29: the answer of HAS_PENDING is that the queue is not empty, written as a length. -/
theorem hasPendingAnswersNonEmpty : Obligations.HasPendingAnswersNonEmpty := by
  intro s
  refine ⟨dispatches_of_not_isInput not_isInput_hasPending s, ?_⟩
  rw [exec, execHasPending, State.pending_eq]
  rfl

/-- Settles O30: the answer of PEEK is the view of the head Frame. -/
theorem peekShowsHead : Obligations.PeekShowsHead := by
  intro s
  refine ⟨dispatches_of_not_isInput not_isInput_peek s, fun hq => ?_, fun f fs hq => ?_⟩
  · exact execPeek_of_head (by rw [hq, List.head?_nil])
  · exact execPeek_of_head (by rw [hq, List.head?_cons])

/-- Settles O32: TAKE pops the oldest Frame and answers it. -/
theorem takeRemovesOldest : Obligations.TakeRemovesOldest := by
  intro s f fs hq
  refine ⟨dispatches_of_not_isInput not_isInput_take s, ?_⟩
  rw [exec, execTake_of_cons hq, State.pop, hq]
  rfl

/-- Settles O33: EmptyDequeue changes nothing, and the answer is `none`. -/
theorem takeOnEmptyReturnsNone : Obligations.TakeOnEmptyReturnsNone :=
  fun s hq => ⟨dispatches_of_not_isInput not_isInput_take s, execTake_of_nil hq⟩

end

section
/-! PROOF. The Frames taken and queued over a run of bytes, TAKEs and queries (44_queue_host R153, 20_memory R62): the
Frames taken, those queued and those still to be read of the candidate and of the bytes to come stay the same, whatever
waits or overtakes at a full queue; the settlement of O49. -/

namespace Sys2Proof.Machine

/-! ## The bytes offered -/

theorem scriptBytes_append (xs ys : List Request) : scriptBytes (xs ++ ys) = scriptBytes xs ++ scriptBytes ys :=
  List.filterMap_append

theorem scriptBytes_cons_of_not_isInput {r : Request} (h : ¬ IsInput r) (rest : List Request) :
    scriptBytes (r :: rest) = scriptBytes rest := by
  cases r with
  | event e =>
    cases e with
    | inp b => exact absurd ⟨b, rfl⟩ h
    | take | rst | hasPending | peek => rfl
  | upsetIn code b => rfl
  | reserved code => rfl

/-- A request that overtakes at a full queue is no byte. -/
theorem State.scriptBytes_present (s : State) : scriptBytes s.present.script = scriptBytes s.script := by
  cases hheld : s.held with
  | false => rw [s.present_of_not_held hheld]
  | true =>
    by_cases hall : ∀ r ∈ s.script, IsInput r
    · obtain ⟨bytes, hs⟩ := exists_inputs_of_forall_isInput hall
      rw [State.present_of_held_inputs hheld hs]
    · push Not at hall
      obtain ⟨x, hx, hin⟩ := hall
      obtain ⟨bytes, r, rest, hr, hs⟩ := exists_first_host_request hx hin
      rw [State.present_of_held_overtakes hheld hr hs, hs, scriptBytes_cons_of_not_isInput hr, scriptBytes_append,
        scriptBytes_append, scriptBytes_cons_of_not_isInput hr]

/-! ## What a step accepts and what it keeps -/

/-- Between `s` and `t` exactly the bytes `accepted` were accepted of those offered, and the Frames taken, those queued
and those still to be read are the same. -/
structure Follows (s t : State) (accepted : List Byte) : Prop where
  offered : scriptBytes s.script = accepted ++ scriptBytes t.script
  reading : ∀ more, takenFrames t.outs ++ (t.q ++ greedyFrames (t.candidateBytes ++ more)) =
    takenFrames s.outs ++ (s.q ++ greedyFrames (s.candidateBytes ++ (accepted ++ more)))

theorem Follows.refl (s : State) : Follows s s [] := ⟨rfl, fun _ => rfl⟩

theorem Follows.trans {s t u : State} {g h : List Byte} (hst : Follows s t g) (htu : Follows t u h) :
    Follows s u (g ++ h) := by
  refine ⟨?_, fun more => ?_⟩
  · rw [hst.offered, htu.offered, List.append_assoc]
  · rw [htu.reading, hst.reading, List.append_assoc]

theorem exec_inp_takenFrames {s t : State} {b : Byte}
    (h : exec (operationOf (.event (.inp b)) s.tag) s = .next t) : takenFrames t.outs = takenFrames s.outs := by
  have haccepted (e : Bool) : takenFrames (s.outs ++ [.accepted e]) = takenFrames s.outs := by
    rw [takenFrames_append]
    exact List.append_nil _
  cases htag : s.tag <;> rw [htag] at h
  case awaitSyncA | awaitSyncB =>
    rw [operationOf] at h
    split at h <;> cases h <;> exact haccepted false
  case awaitClass | awaitId | awaitLenLo | awaitLenHi | awaitChecksumA => cases h; exact haccepted false
  case awaitPayload =>
    obtain ⟨-, rfl⟩ := exec_payload_next h
    exact haccepted false
  case awaitChecksumB =>
    rcases exec_ckb_next h with ⟨-, rfl⟩ | ⟨-, -, rfl⟩ | ⟨-, -, rfl⟩
    · rfl
    · exact haccepted false
    · exact haccepted true

theorem exec_inp_follows {s t : State} {b : Byte} {rest : List Request} (hs : s.CandidateOk s.tag)
    (hscript : s.script = .event (.inp b) :: rest) (h : exec (operationOf (.event (.inp b)) s.tag) s = .next t) :
    ∃ accepted, Follows s t accepted := by
  cases hheld : s.held with
  | true =>
    have hckb : execCkb b s = .next t := by rwa [((State.held_iff s).mp hheld).1] at h
    rw [execCkb_of_held b hheld] at hckb
    cases hckb
    exact ⟨[], .refl s⟩
  | false =>
    refine ⟨[b], ?_, fun more => ?_⟩
    · rw [exec_script_of_not_held hheld h, hscript]
      rfl
    · rw [exec_inp_takenFrames h, exec_inp_keepsReading hs hheld h, List.singleton_append]

/-- TAKE moves the oldest Frame from the queue to the Frames taken. -/
theorem execTake_follows (s : State) (rest : List Request) (hscript : s.script = .event .take :: rest) :
    Follows s (s.pop.retire (.taken s.q.head?)) [] := by
  refine ⟨by rw [hscript, State.retire_script, State.pop_script, hscript]; rfl, fun more => ?_⟩
  have hmoved : takenFrames (s.outs ++ [.taken s.q.head?]) ++ s.q.tail = takenFrames s.outs ++ s.q := by
    rw [takenFrames_append, List.append_assoc]
    cases s.q <;> rfl
  rw [← List.append_assoc, ← List.append_assoc, ← hmoved]
  rfl

/-- A query leaves everything but the script and the answers. -/
theorem retire_follows {s : State} {r : Request} {rest : List Request} {o : Output} (hr : ¬ IsInput r)
    (hscript : s.script = r :: rest) (ho : takenFrames [o] = []) : Follows s (s.retire o) [] := by
  refine ⟨by rw [hscript, State.retire_script, hscript, scriptBytes_cons_of_not_isInput hr]; rfl, fun more => ?_⟩
  rw [State.retire_outs, takenFrames_append, ho, List.append_nil]
  rfl

/-- An `IN`, a TAKE or a query (44_queue_host R153). -/
def IsStreamRequest (r : Request) : Prop := ∃ e, r = .event e ∧ e ≠ .rst

theorem exec_follows {s t : State} {r : Request} {rest : List Request} (hs : s.CandidateOk s.tag)
    (hr : IsStreamRequest r) (hscript : s.script = r :: rest) (h : exec (operationOf r s.tag) s = .next t) :
    ∃ accepted, Follows s t accepted := by
  obtain ⟨e, rfl, hrst⟩ := hr
  cases e with
  | inp b => exact exec_inp_follows hs hscript h
  | take =>
    rw [exec_take_next h]
    exact ⟨[], execTake_follows s rest hscript⟩
  | rst => exact absurd rfl hrst
  | hasPending =>
    cases h
    exact ⟨[], retire_follows not_isInput_hasPending hscript rfl⟩
  | peek =>
    cases h
    exact ⟨[], retire_follows not_isInput_peek hscript rfl⟩

/-! ## A step and a run -/

theorem exec_script_subset {i : Instr} {s t : State} (h : exec i s = .next t) : t.script ⊆ s.script := by
  rcases exec_frame h with ⟨-, htail, -⟩ | ⟨rfl, -, -⟩
  · rw [htail]
    exact List.tail_subset _
  · exact List.Subset.refl _

theorem State.follows_present (s : State) : Follows s s.present [] :=
  ⟨s.scriptBytes_present.symm, fun more => by rw [s.present_eq]; rfl⟩

theorem step_follows {s t : State} (hs : s.CandidateOk s.tag) (hscript : ∀ r ∈ s.script, IsStreamRequest r)
    (h : step s = .next t) :
    (∃ accepted, Follows s t accepted) ∧ t.CandidateOk t.tag ∧ ∀ r ∈ t.script, IsStreamRequest r := by
  have hpresent : s.present.CandidateOk s.present.tag := by rw [s.present_eq]; exact hs
  have hsub : ∀ r ∈ s.present.script, IsStreamRequest r := fun r hr =>
    hscript r (s.present_script_perm.subset hr)
  rcases step_next_performs h with ⟨-, rfl⟩ | ⟨r, rest, hfirst, hexec⟩
  · exact ⟨⟨[], .refl _⟩, hs, hscript⟩
  · obtain ⟨accepted, hfollows⟩ := exec_follows hpresent (hsub r (by simp [hfirst])) hfirst hexec
    exact ⟨⟨_, s.follows_present.trans hfollows⟩, exec_candidateOk hpresent hexec,
      fun x hx => hsub x (exec_script_subset hexec hx)⟩

theorem run_follows {n : Nat} {s t : State} (hs : s.CandidateOk s.tag) (hscript : ∀ r ∈ s.script, IsStreamRequest r)
    (h : run n s = .next t) : (∃ accepted, Follows s t accepted) ∧ t.CandidateOk t.tag := by
  induction n generalizing s with
  | zero =>
    cases h
    exact ⟨⟨[], .refl _⟩, hs⟩
  | succ n ih =>
    obtain ⟨u, hstep, hrun⟩ := andThen_eq_next h
    obtain ⟨⟨g, hfirst⟩, hu, huscript⟩ := step_follows hs hscript hstep
    obtain ⟨⟨g', hrest⟩, ht⟩ := ih hu huscript hrun
    exact ⟨⟨g ++ g', hfirst.trans hrest⟩, ht⟩

end Sys2Proof.Machine

open Sys2Proof Sys2Proof.Machine

/-- Settles O49: nothing can be read of the candidate the run starts with or ends in; and what is read of the whole
stream is what was read so far, followed by what is read of that candidate and the bytes still offered. -/
theorem takenFramesFollowStream : Obligations.TakenFramesFollowStream := by
  intro s t n htag hrst hevents hrun
  have hscript : ∀ r ∈ s.script, IsStreamRequest r := by
    intro r hr
    obtain ⟨e, rfl⟩ := hevents r hr
    exact ⟨e, rfl, by rintro rfl; exact hrst hr⟩
  obtain ⟨⟨accepted, hoffered, hreading⟩, ht⟩ :=
    run_follows (State.candidateOk_of_hunting (.inl htag)) hscript hrun
  have hread : ∀ more, takenFrames t.outs ++ (t.q ++ greedyFrames (t.candidateBytes ++ more)) =
      takenFrames s.outs ++ s.q ++ greedyFrames (accepted ++ more) := fun more => by
    rw [hreading, State.candidateBytes, htag, List.nil_append, List.append_assoc]
  have htaken : takenFrames t.outs ++ t.q = takenFrames s.outs ++ s.q ++ greedyFrames accepted := by
    have h := hread []
    rwa [List.append_nil, List.append_nil, ht.greedyFrames_candidateBytes, List.append_nil] at h
  refine ⟨accepted, hoffered, ?_, greedyFrames (t.candidateBytes ++ scriptBytes t.script), ?_⟩
  · rw [htaken, machineReadsGreedily]
  · have h := hread (scriptBytes t.script)
    rw [← List.append_assoc, htaken, List.append_assoc] at h
    rw [machineReadsGreedily, machineReadsGreedily, hoffered]
    exact List.append_cancel_left h

end

section
/-! PROOF. How many Frames an INGEST can queue (44_queue_host R150): a byte brings the candidate at most one step nearer
to its CKB, and a Frame takes eight; the settlement of O51. -/

namespace Sys2Proof.Machine

/-- Eight, less the number of bytes that a machine in this tag must still take before a Frame can be queued. -/
def Tag.progress : Tag → Nat
  | .awaitSyncA => 0
  | .awaitSyncB => 1
  | .awaitClass => 2
  | .awaitId => 3
  | .awaitLenLo => 4
  | .awaitLenHi => 5
  | .awaitPayload => 5
  | .awaitChecksumA => 6
  | .awaitChecksumB => 7

/-- The Frames queued, counted in bytes of the shortest frame, and the progress of the candidate. -/
def State.frameProgress (s : State) : Nat := overhead * s.q.length + s.tag.progress

theorem Tag.progress_lt (t : Tag) : t.progress < overhead := by cases t <;> decide

/-- With the queue unchanged, the tag alone tells what is gained. -/
theorem frameProgress_le_of_tag {s t : State} {g : Tag} (htag : s.tag = g) (hq : t.q = s.q)
    (hg : t.tag.progress ≤ g.progress + 1) : t.frameProgress ≤ s.frameProgress + 1 := by
  rw [State.frameProgress, State.frameProgress, hq, htag]
  omega

theorem exec_inp_frameProgress_le {s t : State} {b : Byte}
    (h : exec (operationOf (.event (.inp b)) s.tag) s = .next t) : t.frameProgress ≤ s.frameProgress + 1 := by
  cases htag : s.tag <;> rw [htag] at h
  case awaitSyncA | awaitSyncB =>
    rw [operationOf] at h
    split at h <;> cases h <;> exact frameProgress_le_of_tag htag rfl (by simp [Tag.progress])
  case awaitClass | awaitId | awaitLenLo | awaitChecksumA =>
    cases h
    exact frameProgress_le_of_tag htag rfl (by simp [Tag.progress])
  case awaitLenHi =>
    cases h
    refine frameProgress_le_of_tag htag rfl ?_
    rw [State.accept_tag, State.setTag_tag]
    split <;> decide
  case awaitPayload =>
    obtain ⟨-, rfl⟩ := exec_payload_next h
    refine frameProgress_le_of_tag htag rfl ?_
    rw [State.accept_tag, State.setTag_tag]
    split <;> decide
  case awaitChecksumB =>
    rcases exec_ckb_next h with ⟨-, rfl⟩ | ⟨-, -, rfl⟩ | ⟨-, -, rfl⟩
    · exact Nat.le_succ _
    · simp only [State.frameProgress, htag, Tag.progress, overhead, State.accept_q, State.setTag_q,
        State.discardScratch_q, State.push_q, State.accept_tag, State.setTag_tag, List.length_append,
        List.length_singleton]
      omega
    · exact frameProgress_le_of_tag htag rfl (by simp [Tag.progress])

theorem run_inputs_frameProgress_le {n : Nat} {bytes : List Byte} {s t : State} (hs : s.script = inputs bytes)
    (h : run n s = .next t) : t.frameProgress ≤ s.frameProgress + n := by
  induction n generalizing s bytes with
  | zero => cases h; exact le_refl _
  | succ n ih =>
    obtain ⟨u, hstep, hrun⟩ := andThen_eq_next h
    cases hheld : s.held with
    | true =>
      cases (step_of_held_inputs hheld hs).symm.trans hstep
      exact (ih hs hrun).trans (by omega)
    | false =>
      cases bytes with
      | nil =>
        cases (step_of_empty hs).symm.trans hstep
        exact (ih hs hrun).trans (by omega)
      | cons b bytes =>
        rw [step_of_not_held hheld hs, decodeWord_dispatchWord] at hstep
        have hscript : u.script = inputs bytes := by rw [exec_script_of_not_held hheld hstep, hs]; rfl
        have hbyte := exec_inp_frameProgress_le hstep
        exact (ih hscript hrun).trans (by omega)

end Sys2Proof.Machine

open Sys2Proof Sys2Proof.Machine

/-- Settles O51: the progress of `n` bytes is at most `n`, and a candidate begun before brings at most seven more. -/
theorem framesPerIngestBound : Obligations.FramesPerIngestBound := by
  intro bytes s t hs h
  rw [ingest_of_idle bytes hs] at h
  have hprogress := run_inputs_frameProgress_le rfl h
  have hbegun := s.tag.progress_lt
  simp only [State.frameProgress, overhead] at hprogress hbegun
  omega

end

section
/-! PROOF. What the payload decoder reads (48_payload_decoder R166, R167, R169): the length it accepts, the number that the
bytes at an offset stand for, a flag as a binary digit, and the fix type of a byte; the settlement of O56. -/

namespace Sys2Proof.Machine

theorem decodeNav_eq_none_iff (p : List Byte) : decodeNav p = none ↔ p.length ≠ 92 := by
  simp [decodeNav, navLength]

/-! ## Numbers and flags -/

theorem toNat_u16At (p : List Byte) (i : Nat) :
    (u16At p i).toNat = (p.getD i 0).toNat + 256 * (p.getD (i + 1) 0).toNat := by
  rw [u16At, toNat_assembleLength, u8At, u8At]
  omega

theorem toNat_u32At (p : List Byte) (i : Nat) : (u32At p i).toNat = littleEndian32 p i := by
  have hlow : (u16At p i).toNat < 2 ^ 16 := (u16At p i).isLt
  have hhigh : (u16At p (i + 2)).toNat < 2 ^ 16 := (u16At p (i + 2)).isLt
  have hshift : (u16At p (i + 2)).toNat <<< 16 < 2 ^ 32 := by
    rw [Nat.shiftLeft_eq]
    omega
  rw [u32At, BitVec.toNat_or, BitVec.toNat_shiftLeft, BitVec.toNat_setWidth_of_le (by decide),
    BitVec.toNat_setWidth_of_le (by decide), Nat.mod_eq_of_lt hshift, Nat.or_comm,
    ← Nat.shiftLeft_add_eq_or_of_lt hlow, Nat.shiftLeft_eq, toNat_u16At, toNat_u16At, littleEndian32]
  ring

theorem i32At_isSignedReading (p : List Byte) (i : Nat) : IsSignedReading (i32At p i) (littleEndian32 p i) := by
  have hlt : (u32At p i).toNat < 2 ^ 32 := (u32At p i).isLt
  rw [IsSignedReading, i32At, ← toNat_u32At, BitVec.toInt_eq_toNat_cond]
  split <;> omega

/-- A bit of a byte as a digit of its number. -/
theorem getLsbD_eq_true_iff_div_mod (b : Byte) (i : Nat) : b.getLsbD i = true ↔ b.toNat / 2 ^ i % 2 = 1 := by
  rw [BitVec.getLsbD, Nat.testBit_eq_decide_div_mod_eq, decide_eq_true_eq]

theorem getLsbD_zero_eq_true_iff (b : Byte) : b.getLsbD 0 = true ↔ b.toNat % 2 = 1 := by
  rw [getLsbD_eq_true_iff_div_mod, Nat.pow_zero, Nat.div_one]

/-! ## The fix type -/

/-- The byte of a fix type. -/
def FixType.code : FixType → Byte
  | .noFix => 0
  | .deadReckoning => 1
  | .fix2D => 2
  | .fix3D => 3
  | .gnssDeadReckoning => 4
  | .timeOnly => 5
  | .other raw => raw

/-- No byte is lost in its fix type. -/
theorem code_fixTypeOf (b : Byte) : (fixTypeOf b).code = b := by
  rw [fixTypeOf]
  split
  case h_7 => rfl
  all_goals exact BitVec.eq_of_toNat_eq (Eq.symm ‹_›)

theorem fixTypeOf_eq_iff {t : FixType} (ht : fixTypeOf t.code = t) (b : Byte) : fixTypeOf b = t ↔ b = t.code :=
  ⟨fun h => h ▸ (code_fixTypeOf b).symm, fun h => h ▸ ht⟩

theorem fixTypeOf_of_gt {b : Byte} (h : 5 < b.toNat) : fixTypeOf b = .other b := by
  have hcode := code_fixTypeOf b
  cases ht : fixTypeOf b <;> rw [ht] at hcode <;> subst hcode
  case other => rfl
  all_goals exact absurd h (by decide)

end Sys2Proof.Machine

open Sys2Proof Sys2Proof.Machine

/-- Settles O56: each field is one of the reads above, at its offset. -/
theorem navDecoderFields : Obligations.NavDecoderFields := by
  intro p
  refine ⟨decodeNav_eq_none_iff p, fun r h => ?_⟩
  rw [decodeNav] at h
  split at h <;> cases h
  exact ⟨toNat_u16At p 4, rfl, rfl, rfl, rfl, rfl, getLsbD_zero_eq_true_iff _, getLsbD_eq_true_iff_div_mod _ 1,
    getLsbD_eq_true_iff_div_mod _ 2, getLsbD_eq_true_iff_div_mod _ 3, toNat_u32At p 12, i32At_isSignedReading p 16,
    fixTypeOf_eq_iff rfl _, fixTypeOf_eq_iff rfl _, fixTypeOf_eq_iff rfl _, fixTypeOf_eq_iff rfl _,
    fixTypeOf_eq_iff rfl _, fixTypeOf_eq_iff rfl _, fixTypeOf_of_gt, getLsbD_zero_eq_true_iff _,
    getLsbD_eq_true_iff_div_mod _ 1, rfl, i32At_isSignedReading p 24, i32At_isSignedReading p 28, toNat_u32At p 40,
    toNat_u32At p 44⟩

end

section
/-! PROOF. The timestamp of the payload decoder (48_payload_decoder R168): its three outcomes, and the ranges of a date
that exists; the settlement of O59. -/

namespace Sys2Proof.Machine

/-- A decoded record has the date and time fields of its payload, and the timestamp made of them. -/
theorem decodeNav_utc {p : List Byte} {r : NavPositionVelocityTime} (h : decodeNav p = some r) :
    r.utc = utcFieldsOf p ∧ r.timestamp = timestampOf r.utc := by
  rw [decodeNav] at h
  split at h <;> cases h
  exact ⟨rfl, rfl⟩

theorem timestampOf_of_negative {u : UtcFields} (h : u.nanosecond < 0) :
    timestampOf u = .refused .negativeNanosecond := if_pos h

theorem timestampOf_of_impossible {u : UtcFields} (h : 0 ≤ u.nanosecond) (hd : u.dateExists = false) :
    timestampOf u = .refused .impossibleDate := by
  rw [timestampOf, if_neg (not_lt.mpr h), hd]
  rfl

/-- The timestamp of fields that name a date and a nanosecond count. -/
def UtcFields.asTimestamp (u : UtcFields) : UtcTimestamp where
  year := u.year.toNat
  month := u.month.toNat
  day := u.day.toNat
  hour := u.hour.toNat
  minute := u.minute.toNat
  second := u.second.toNat
  milliseconds := u.nanosecond.toNat / 1000000
  nanosecondRest := u.nanosecond.toNat % 1000000
  utcOffsetMinutes := 0

theorem timestampOf_of_exists {u : UtcFields} (h : 0 ≤ u.nanosecond) (hd : u.dateExists = true) :
    timestampOf u = .formed u.asTimestamp := by
  rw [timestampOf, if_neg (not_lt.mpr h), if_pos hd]
  rfl

theorem daysInMonth_le (year month : Nat) : daysInMonth year month ≤ 31 := by
  rw [daysInMonth.eq_def]
  repeat' split
  all_goals omega

/-- Only the months 1 to 12 have a day. -/
theorem month_range_of_daysInMonth_pos {year month : Nat} (h : 0 < daysInMonth year month) : 1 ≤ month ∧ month ≤ 12 := by
  rw [daysInMonth.eq_def] at h
  split at h <;> omega

theorem UtcFields.range_of_dateExists {u : UtcFields} (h : u.dateExists = true) :
    1 ≤ u.month.toNat ∧ u.month.toNat ≤ 12 ∧ 1 ≤ u.day.toNat ∧ u.day.toNat ≤ 31 := by
  rw [UtcFields.dateExists, Bool.and_eq_true, decide_eq_true_eq, decide_eq_true_eq] at h
  obtain ⟨hlow, hhigh⟩ := h
  obtain ⟨hmonth, hmonth'⟩ := month_range_of_daysInMonth_pos (hlow.trans hhigh)
  exact ⟨hmonth, hmonth', hlow, hhigh.trans (daysInMonth_le _ _)⟩

end Sys2Proof.Machine

open Sys2Proof Sys2Proof.Machine

/-- Settles O59: one outcome for each case, and the nanosecond is its quotient by 10^6 and the rest. -/
theorem navTimestamp : Obligations.NavTimestamp := by
  intro p r h
  obtain ⟨-, htimestamp⟩ := decodeNav_utc h
  rw [htimestamp]
  refine ⟨timestampOf_of_negative, timestampOf_of_impossible, fun hn hd => ?_, UtcFields.range_of_dateExists⟩
  refine ⟨r.utc.asTimestamp, timestampOf_of_exists hn hd, rfl, rfl, rfl, rfl, rfl, rfl, ?_, Nat.mod_lt _ (by decide), rfl⟩
  rw [UtcFields.asTimestamp, Nat.div_add_mod', Int.toNat_of_nonneg hn]

end

section
/-! PROOF. The rounding error of the payload decoder's degrees (48_payload_decoder R170): each of the four roundings moves
a magnitude by at most one part in 2^23, and single precision holds every magnitude that results; the settlement of
O60. -/

namespace Sys2Proof.Machine

/-! ## The number a magnitude stands for -/

/-- The number that a scaled significand stands for. -/
def Scaled.value (x : Scaled) : Rat := x.significand * 2 ^ x.exponent

theorem Scaled.value_mul (x y : Scaled) : (x.mul y).value = x.value * y.value := by
  simp only [Scaled.value, Scaled.mul, Nat.cast_mul, zpow_add₀ (two_ne_zero : (2 : Rat) ≠ 0)]
  ring

theorem Scaled.value_pos_iff (x : Scaled) : 0 < x.value ↔ 0 < x.significand := by
  rw [Scaled.value, mul_pos_iff_of_pos_right (by positivity), Nat.cast_pos]

/-- A power of two as the quotient of the two natural ones the model writes for it. -/
theorem two_pow_toNat_div (e : Int) : (2 : Rat) ^ e.toNat / 2 ^ (-e).toNat = 2 ^ e := by
  rw [← zpow_natCast, ← zpow_natCast, ← zpow_sub₀ two_ne_zero, Int.toNat_sub_toNat_neg]

theorem Scaled.value_eq_div (x : Scaled) :
    x.value = ((x.significand * 2 ^ x.exponent.toNat : Nat) : Rat) / (2 ^ (-x.exponent).toNat : Nat) := by
  push_cast
  rw [mul_div_assoc, two_pow_toNat_div, Scaled.value]

theorem scaledNum_div_scaledDen (n d : Nat) (e : Int) :
    (scaledNum n e : Rat) / scaledDen d e * 2 ^ e = (n : Rat) / d := by
  rw [← two_pow_toNat_div, scaledNum, scaledDen]
  push_cast
  field_simp

/-! ## Being some roundings away -/

/-- `v` is `x` after `k` roundings, of which each moves a magnitude by at most one part in 2^23. -/
def WithinRoundings (k : Nat) (v x : Rat) : Prop :=
  (1 - 1 / 2 ^ 23) ^ k * x ≤ v ∧ v ≤ (1 + 1 / 2 ^ 23) ^ k * x

theorem WithinRoundings.trans {k m : Nat} {u v x : Rat} (huv : WithinRoundings k u v) (hvx : WithinRoundings m v x) :
    WithinRoundings (k + m) u x := by
  obtain ⟨hul, huh⟩ := huv
  obtain ⟨hvl, hvh⟩ := hvx
  constructor
  · rw [pow_add, mul_assoc]
    exact (mul_le_mul_of_nonneg_left hvl (by positivity)).trans hul
  · rw [pow_add, mul_assoc]
    exact huh.trans (mul_le_mul_of_nonneg_left hvh (by positivity))

theorem WithinRoundings.nonneg {k : Nat} {v x : Rat} (h : WithinRoundings k v x) (hx : 0 ≤ x) : 0 ≤ v :=
  (mul_nonneg (pow_nonneg (by norm_num) k) hx).trans h.1

theorem WithinRoundings.pos {k : Nat} {v x : Rat} (h : WithinRoundings k v x) (hx : 0 < x) : 0 < v :=
  (mul_pos (pow_pos (by norm_num) k) hx).trans_le h.1

theorem WithinRoundings.mul {k m : Nat} {u v x y : Rat} (hu : WithinRoundings k u x) (hv : WithinRoundings m v y)
    (hx : 0 ≤ x) (hy : 0 ≤ y) : WithinRoundings (k + m) (u * v) (x * y) := by
  have hlow : (0 : Rat) ≤ 1 - 1 / 2 ^ 23 := by norm_num
  constructor
  · rw [pow_add, mul_mul_mul_comm]
    exact mul_le_mul hu.1 hv.1 (by positivity) (hu.nonneg hx)
  · rw [pow_add, mul_mul_mul_comm]
    exact mul_le_mul hu.2 hv.2 (hv.nonneg hy) (by positivity)

/-! ## One rounding -/

/-- A quotient with at least 23 bits before the point, rounded to a whole number. -/
theorem roundQuotient_within (r : Config.Rounding) (neg : Bool) {n d : Nat} (hd : 0 < d) (h : 2 ^ 23 * d ≤ n) :
    WithinRoundings 1 (roundQuotient r neg n d) ((n : Rat) / d) := by
  obtain ⟨hhigh, hlow⟩ := roundQuotient_error r neg (n := n) hd
  have hd' : (0 : Rat) < d := by exact_mod_cast hd
  have hhigh' : (roundQuotient r neg n d * d : Rat) < n + d := by exact_mod_cast hhigh
  have hlow' : (n : Rat) < roundQuotient r neg n d * d + d := by exact_mod_cast hlow
  have h' : (2 ^ 23 * d : Rat) ≤ n := by exact_mod_cast h
  constructor
  · rw [pow_one, ← mul_div_assoc, div_le_iff₀ hd']
    linarith
  · rw [pow_one, ← mul_div_assoc, le_div_iff₀ hd']
    linarith

theorem roundTo_within (r : Config.Rounding) {p : Nat} (hp : 24 ≤ p) (neg : Bool) (n : Nat) {d : Nat} (hd : 0 < d) :
    WithinRoundings 1 (roundTo r p neg n d).value ((n : Rat) / d) := by
  by_cases hn : n = 0
  · simp [roundTo, hn, Scaled.value, WithinRoundings]
  · obtain ⟨hspec, -⟩ := exponentFor_spec p (Nat.pos_of_ne_zero hn) hd
    have hD : 0 < scaledDen d (exponentFor p n d) := by unfold scaledDen; positivity
    have hpow : 2 ^ 24 * scaledDen d (exponentFor p n d) ≤ 2 ^ p * scaledDen d (exponentFor p n d) :=
      Nat.mul_le_mul_right _ (Nat.pow_le_pow_right (by decide) hp)
    obtain ⟨hlow, hhigh⟩ := roundQuotient_within r neg hD (show _ ≤ scaledNum n (exponentFor p n d) by omega)
    rw [← scaledNum_div_scaledDen n d (exponentFor p n d), roundTo, if_neg hn, Scaled.value, WithinRoundings,
      ← mul_assoc, ← mul_assoc]
    exact ⟨mul_le_mul_of_nonneg_right hlow (by positivity), mul_le_mul_of_nonneg_right hhigh (by positivity)⟩

theorem Scaled.roundTo_within (r : Config.Rounding) {p : Nat} (hp : 24 ≤ p) (neg : Bool) (x : Scaled) :
    WithinRoundings 1 (x.roundTo r p neg).value x.value := by
  rw [x.value_eq_div]
  exact Machine.roundTo_within r hp neg _ (by positivity)

/-- A magnitude above 0 brought to single precision has a significand that `singleBits` can hold. -/
theorem Scaled.roundTo_single_significand (r : Config.Rounding) (neg : Bool) {x : Scaled} (h : 0 < x.value) :
    2 ^ 23 ≤ (x.roundTo r 24 neg).significand ∧ (x.roundTo r 24 neg).significand ≤ 2 ^ 24 := by
  have hx : 0 < x.significand := x.value_pos_iff.mp h
  obtain ⟨hlow, hhigh⟩ := roundTo_significand r 24 neg (n := x.significand * 2 ^ x.exponent.toNat)
    (d := 2 ^ (-x.exponent).toNat) (by positivity) (by positivity)
  rw [Scaled.roundTo]
  omega

/-- With a significand of 24 bits, bounds on the number are bounds on the exponent. -/
theorem Scaled.exponent_bounds {x : Scaled} {a b : Int} (hlow : 2 ^ 23 ≤ x.significand) (hhigh : x.significand ≤ 2 ^ 24)
    (ha : (2 : Rat) ^ a < x.value) (hb : x.value < 2 ^ b) : a - 24 < x.exponent ∧ x.exponent < b - 23 := by
  have hlow' : (2 : Rat) ^ (23 : Int) ≤ x.significand := by exact_mod_cast hlow
  have hhigh' : (x.significand : Rat) ≤ 2 ^ (24 : Int) := by exact_mod_cast hhigh
  have hpow : (0 : Rat) ≤ 2 ^ x.exponent := by positivity
  have hup : (2 : Rat) ^ a < 2 ^ (24 + x.exponent) := by
    rw [zpow_add₀ two_ne_zero]
    exact ha.trans_le (mul_le_mul_of_nonneg_right hhigh' hpow)
  have hdown : (2 : Rat) ^ (23 + x.exponent) < 2 ^ b := by
    rw [zpow_add₀ two_ne_zero]
    exact (mul_le_mul_of_nonneg_right hlow' hpow).trans_lt hb
  rw [zpow_lt_zpow_iff_right₀ one_lt_two] at hup hdown
  omega

/-! ## The single-precision word -/

/-- The number with a given sign and magnitude. -/
def withSign (neg : Bool) (v : Rat) : Rat := if neg then -v else v

theorem withSign_natAbs_div (z : Int) (d : Rat) : withSign (z < 0) (z.natAbs / d) = z / d := by
  rw [withSign, Nat.cast_natAbs, Int.cast_abs]
  obtain h | h := lt_or_ge z 0
  · rw [if_pos (decide_eq_true h), abs_of_neg (Int.cast_lt_zero.mpr h), neg_div, neg_neg]
  · rw [if_neg (by simpa using h), abs_of_nonneg (Int.cast_nonneg_iff.mpr h)]

theorem abs_withSign (neg : Bool) (v : Rat) : |withSign neg v| = |v| := by
  cases neg
  · rfl
  · exact abs_neg v

theorem abs_withSign_sub (neg : Bool) (v x : Rat) : |withSign neg v - withSign neg x| = |v - x| := by
  cases neg
  · rfl
  · exact (congrArg abs (neg_sub' v x).symm).trans (abs_neg _)

theorem withSign_nonneg_iff {v : Rat} (hv : 0 < v) (neg : Bool) : 0 ≤ withSign neg v ↔ neg = false := by
  cases neg <;> simp [withSign, hv, hv.le]

/-- The number of a word that is put together from sign, biased exponent and fraction. -/
theorem singleValue_ofNat (neg : Bool) {e f : Nat} (he : 0 < e) (he' : e < 255) (hf : f < 2 ^ 23) :
    singleValue (BitVec.ofNat 32 ((if neg then 2 ^ 31 else 0) + e * 2 ^ 23 + f)) =
      some (withSign neg (((2 ^ 23 + f : Nat) : Rat) * 2 ^ e / 2 ^ 150)) := by
  obtain ⟨w, hw⟩ : ∃ w : BitVec 32, w = BitVec.ofNat 32 ((if neg then 2 ^ 31 else 0) + e * 2 ^ 23 + f) := ⟨_, rfl⟩
  have hnat : w.toNat = (if neg then 2 ^ 31 else 0) + e * 2 ^ 23 + f := by
    rw [hw, BitVec.toNat_ofNat]
    split <;> omega
  have hsign : w.getLsbD 31 = neg := by
    rw [BitVec.getLsbD, Nat.testBit_eq_decide_div_mod_eq, hnat]
    cases neg <;> simp <;> omega
  have hexponent : (w.extractLsb' 23 8).toNat = e := by
    rw [BitVec.extractLsb'_toNat, Nat.shiftRight_eq_div_pow, hnat]
    split <;> omega
  have hfraction : (w.extractLsb' 0 23).toNat = f := by
    rw [BitVec.extractLsb'_toNat, Nat.shiftRight_zero, hnat]
    split <;> omega
  rw [← hw, singleValue, hsign, hexponent, hfraction]
  simp only [show e ≠ 255 by omega, show e ≠ 0 by omega, if_false, withSign]
  congr 1
  split <;> ring

/-- A magnitude with a significand of 24 bits, or of the next power of two, and an exponent in the range of single
precision is held exactly. -/
theorem singleValue_singleBits (neg : Bool) {x : Scaled} (hlow : 2 ^ 23 ≤ x.significand) (hhigh : x.significand ≤ 2 ^ 24)
    (helow : -149 ≤ x.exponent) (hehigh : x.exponent < 104) :
    singleValue (singleBits neg x) = some (withSign neg x.value) := by
  obtain ⟨m, k⟩ := x
  dsimp only at hlow hhigh helow hehigh
  obtain ⟨e, rfl⟩ : ∃ e : Nat, k = (e : Int) - 150 := ⟨(k + 150).toNat, by omega⟩
  have hvalue : Scaled.value ⟨m, (e : Int) - 150⟩ = m * 2 ^ e / 2 ^ 150 := by
    rw [Scaled.value, zpow_sub₀ two_ne_zero, zpow_natCast, mul_div_assoc]
    rfl
  rw [singleBits, if_neg (by dsimp only; omega), hvalue]
  dsimp only
  rw [show ((e : Int) - 150 + 150).toNat = e by omega]
  rcases Nat.lt_or_eq_of_le hhigh with hlt | rfl
  · rw [singleValue_ofNat neg (by omega) (by omega) (by omega), Nat.add_sub_cancel' hlow]
  · have hcarry := singleValue_ofNat neg (e := e + 1) (f := 0) (by omega) (by omega) (by omega)
    rw [show (if neg = true then 2 ^ 31 else 0) + e * 2 ^ 23 + (2 ^ 24 - 2 ^ 23) =
      (if neg = true then 2 ^ 31 else 0) + (e + 1) * 2 ^ 23 + 0 by omega, hcarry]
    congr 3
    push_cast
    ring

/-! ## The degrees -/

/-- The product in the consumer's format. -/
def degreesProduct (r : Config.Rounding) (extra : Nat) (neg : Bool) (m : Nat) : Scaled :=
  ((roundTo r (24 + extra) neg m 1).mul (roundTo r (24 + extra) false 1 10000000)).roundTo r (24 + extra) neg

/-- The magnitude of the degrees: the product brought to single precision. -/
def degreesMagnitude (r : Config.Rounding) (extra : Nat) (neg : Bool) (m : Nat) : Scaled :=
  (degreesProduct r extra neg m).roundTo r 24 neg

theorem degreesIn_eq_singleBits (r : Config.Rounding) (extra : Nat) (raw : Int) :
    degreesIn r extra raw = singleBits (raw < 0) (degreesMagnitude r extra (raw < 0) raw.natAbs) := rfl

theorem degreesIn_zero (r : Config.Rounding) (extra : Nat) : degreesIn r extra 0 = 0 := by
  simp [degreesIn, roundTo, Scaled.mul, Scaled.roundTo, singleBits]

/-- The product before single precision has seen three roundings: of the raw value, of 1e-7 and its own. -/
theorem degreesProduct_within (r : Config.Rounding) (extra : Nat) (neg : Bool) (m : Nat) :
    WithinRoundings 3 (degreesProduct r extra neg m).value ((m : Rat) / 10000000) := by
  have hp : 24 ≤ 24 + extra := Nat.le_add_right _ _
  have hraw := roundTo_within r hp neg m Nat.one_pos
  have hfactor := roundTo_within r hp false 1 (d := 10000000) (by decide)
  have hproduct := hraw.mul hfactor (by positivity) (by positivity)
  rw [← Scaled.value_mul, Nat.cast_one, div_one, Nat.cast_ofNat, mul_one_div] at hproduct
  exact (Scaled.roundTo_within r hp neg _).trans hproduct

theorem degreesMagnitude_within (r : Config.Rounding) (extra : Nat) (neg : Bool) (m : Nat) :
    WithinRoundings 4 (degreesMagnitude r extra neg m).value ((m : Rat) / 10000000) :=
  (Scaled.roundTo_within r (le_refl 24) neg _).trans (degreesProduct_within r extra neg m)

/-- Single precision holds the degrees of every raw value but 0, which has a word of its own. -/
theorem singleValue_degreesMagnitude (r : Config.Rounding) (extra : Nat) (neg : Bool) {m : Nat} (hm : 0 < m)
    (hm' : m ≤ 2147483648) :
    singleValue (singleBits neg (degreesMagnitude r extra neg m)) =
      some (withSign neg (degreesMagnitude r extra neg m).value) := by
  have hone : (1 : Rat) ≤ m := by exact_mod_cast hm
  have hmax : (m : Rat) ≤ 2147483648 := by exact_mod_cast hm'
  obtain ⟨hlow, hhigh⟩ := Scaled.roundTo_single_significand r neg
    ((degreesProduct_within r extra neg m).pos (by positivity))
  obtain ⟨hvlow, hvhigh⟩ := degreesMagnitude_within r extra neg m
  rw [← degreesMagnitude] at hlow hhigh
  generalize degreesMagnitude r extra neg m = x at *
  have hvalue : (2 : Rat) ^ (-25 : Int) < x.value := by
    norm_num at hvlow ⊢
    linarith
  have hvalue' : x.value < (2 : Rat) ^ (9 : Int) := by
    norm_num at hvhigh ⊢
    linarith
  obtain ⟨helow, hehigh⟩ := Scaled.exponent_bounds hlow hhigh hvalue hvalue'
  exact singleValue_singleBits neg hlow hhigh (by omega) (by omega)

/-- Four roundings move a magnitude by less than one part in 2^20. -/
theorem WithinRoundings.abs_sub_le {v x : Rat} (h : WithinRoundings 4 v x) (hx : 0 ≤ x) : |v - x| * 1048576 ≤ x := by
  obtain ⟨hlow, hhigh⟩ := h
  have habs : |v - x| ≤ x / 1048576 := by
    rw [abs_le]
    norm_num at hlow hhigh
    constructor <;> linarith
  linarith

end Sys2Proof.Machine

open Sys2Proof Sys2Proof.Machine

/-- Settles O60: the magnitude is four roundings away from the product, and a number so near to another has its sign. -/
theorem navDegreesNearProduct : Obligations.NavDegreesNearProduct := by
  intro r extra raw hmin hmax
  obtain rfl | hraw := eq_or_ne raw 0
  · exact ⟨0, by simp [degreesIn_zero, singleValue], by simp, by simp⟩
  · have hword := singleValue_degreesMagnitude r extra (raw < 0) (m := raw.natAbs) (by omega) (by omega)
    have hwithin := degreesMagnitude_within r extra (raw < 0) raw.natAbs
    have hexact : (0 : Rat) < (raw.natAbs : Rat) / 10000000 := by
      have := Int.natAbs_pos.mpr hraw
      positivity
    refine ⟨_, (degreesIn_eq_singleBits r extra raw) ▸ hword, ?_, ?_⟩
    · rw [← withSign_natAbs_div, abs_withSign_sub, abs_withSign, abs_of_pos hexact]
      exact hwithin.abs_sub_le hexact.le
    · rw [withSign_nonneg_iff (hwithin.pos hexact), decide_eq_false_iff_not, not_lt]

end

section
/-! PROOF. The conditions (60_exceptions R190, R200); the settlement of the obligation on what each does to the state. -/

open Sys2Proof Sys2Proof.Machine

/-- Settles O40: a row of R200's table for each condition. The dead scratch of ChecksumMismatch is that of
`discardScratch`, which keeps the configuration, the queue, the script and the outputs. -/
theorem conditionEffects : Obligations.ConditionEffects := by
  intro s
  refine ⟨?syncLoss, ⟨s.discardScratch, ?checksumMismatch⟩, ?emptyDequeue, ?queueFullHold⟩
  case syncLoss => exact s.raise_syncLoss
  case checksumMismatch => exact s.raise_checksumMismatch
  case emptyDequeue => exact s.raise_emptyDequeue
  case queueFullHold => exact s.raise_queueFullHold

end

section
/-! PROOF. RST (70_reset_and_hazards R220); the settlement of O36. -/

namespace Sys2Proof.Machine

theorem not_isInput_rst : ¬ IsInput (.event .rst) := by rintro ⟨b, ⟨⟩⟩

theorem State.ckErr_retire (s : State) (o : Output) : (s.retire o).ckErr = o.ckErr := by
  rw [State.ckErr, State.retire_outs, List.getLast?_concat]

theorem State.inReady_of_tag {s : State} (h : s.tag ≠ .awaitChecksumB) : s.inReady = true :=
  s.inReady_eq_true_iff.mpr (State.not_held_of_tag h)

end Sys2Proof.Machine

open Sys2Proof Sys2Proof.Machine

/-- Settles O36: RST is performed on hold too, and its meaning is the stated state, whose scratch is that of
`discardScratch`. -/
theorem resetDiscardsEverything : Obligations.ResetDiscardsEverything := by
  intro s
  refine ⟨dispatches_of_not_isInput not_isInput_rst s, s.discardScratch, _, rfl, rfl, rfl, ?inReady, ?ckErr, ?ckErrs⟩
  case inReady => exact State.inReady_of_tag (by simp)
  case ckErr => exact State.ckErr_retire _ .wasReset
  case ckErrs => exact ckErrCount_append_of_not_ckErr rfl s.outs

end

section
/-! PROOF. One clock cycle (70_reset_and_hazards R236): RST alone, or the cycle's TAKE and then its `IN`, if it has
them; when the port `ck_err` is 1 (10_state R33, R34); the settlement of O54. -/

namespace Sys2Proof.Machine

/-! ## Performing a short script -/

theorem run_one (s : State) : run 1 s = step s := by
  rw [run]
  cases step s <;> rfl

theorem settle_of_nil {s : State} (hs : s.script = []) : settle s = .next s := by
  rw [settle, hs]
  rfl

theorem settle_of_singleton {s : State} {r : Request} (hs : s.script = [r]) : settle s = step s := by
  rw [settle, hs]
  exact run_one s

/-- A TAKE that stands first is performed, on hold or not, and the other requests after it. -/
theorem settle_of_take {s : State} {rest : List Request} (hs : s.script = .event .take :: rest) :
    settle s = settle (s.pop.retire (.taken s.q.head?)) := by
  have hstep : step s = .next (s.pop.retire (.taken s.q.head?)) :=
    (step_of_not_isInput not_isInput_take hs).trans (execTake_eq s)
  rw [settle, settle, State.retire_script, State.pop_script, hs, List.tail_cons, List.length_cons,
    run_succ_of_next _ hstep]

/-- Removing a Frame begins no hold. -/
theorem State.not_held_pop {s : State} (h : s.held = false) : s.pop.held = false := by
  refine Bool.eq_false_iff.mpr fun hheld => Bool.eq_false_iff.mp h ?_
  obtain ⟨htag, n, hn, hcap, hle⟩ := s.pop.held_iff_full.mp hheld
  rw [State.pop_q, List.length_tail] at hle
  exact s.held_iff_full.mpr ⟨htag, n, hn, hcap, by omega⟩

/-! ## The answer to a byte -/

/-- A byte that is not on hold is answered, with `ck_err` for a CKB whose comparison fails. -/
theorem exec_inp_outs {s t : State} {b : Byte} (hheld : s.held = false)
    (h : exec (operationOf (.event (.inp b)) s.tag) s = .next t) :
    t.outs = s.outs ++ [.accepted (decide (s.tag = .awaitChecksumB) && !s.checksumMatches b)] := by
  cases htag : s.tag <;> rw [htag] at h
  case awaitSyncA | awaitSyncB =>
    rw [operationOf] at h
    split at h <;> cases h <;> rfl
  case awaitClass | awaitId | awaitLenLo | awaitLenHi | awaitChecksumA => cases h; rfl
  case awaitPayload =>
    obtain ⟨-, rfl⟩ := exec_payload_next h
    rfl
  case awaitChecksumB =>
    rcases exec_ckb_next h with ⟨hh, -⟩ | ⟨-, hmatch, rfl⟩ | ⟨-, hmismatch, rfl⟩
    · exact absurd (hheld.symm.trans hh) (by decide)
    · rw [hmatch]; rfl
    · rw [hmismatch]; rfl

/-- The port `ck_err` reads the answers that the cycle added. -/
theorem cycleCkErr_of_append {s t : State} {answers : List Output} (h : t.outs = s.outs ++ answers) :
    cycleCkErr s t = answers.any Output.ckErr := by
  rw [cycleCkErr, h, List.drop_left]

/-! ## The state before the events of a cycle, and after its TAKE -/

/-- The state at the start of a cycle: the cycle's events are the whole script. -/
def State.atCycle (s : State) (p : PortsIn) : State :=
  { s with script := (s.cycleEvents p).map .event, draw := s.draw + 1 }

/-- The state after the TAKE of a cycle, if it has one. -/
def State.afterTake (s : State) (p : PortsIn) : State :=
  if p.take then (s.atCycle p).pop.retire (.taken s.q.head?) else s.atCycle p

section
variable {s : State} {p : PortsIn}

theorem State.atCycle_of_rst (hrst : p.rst = true) :
    s.atCycle p = { s with script := [.event .rst], draw := s.draw + 1 } := by
  simp [State.atCycle, State.cycleEvents, hrst]

/-- The events of a cycle without RST: a TAKE, then an `IN`. -/
theorem State.atCycle_of_no_rst (hrst : p.rst = false) : s.atCycle p = { s with
    script := (if p.take then [.event .take] else []) ++
      if p.inValid && s.inReady then [.event (.inp p.inData)] else []
    draw := s.draw + 1 } := by
  simp [State.atCycle, State.cycleEvents, hrst, apply_ite (List.map Request.event)]

theorem State.afterTake_of_take (htake : p.take = true) :
    s.afterTake p = (s.atCycle p).pop.retire (.taken s.q.head?) := by
  rw [State.afterTake, if_pos htake]

theorem State.afterTake_of_no_take (htake : p.take = false) : s.afterTake p = s.atCycle p := by
  simp [State.afterTake, htake]

/-- What CKB compares is what stood before the cycle, and so is whether a byte is held, which a TAKE does not begin. -/
theorem State.afterTake_frame : (s.afterTake p).tag = s.tag ∧
    (∀ b, (s.afterTake p).checksumMatches b = s.checksumMatches b) ∧
    (s.held = false → (s.afterTake p).held = false) := by
  unfold State.afterTake
  split
  · exact ⟨rfl, fun _ => rfl, fun hheld => State.not_held_pop (s := s.atCycle p) hheld⟩
  · exact ⟨rfl, fun _ => rfl, id⟩

theorem State.afterTake_outs :
    (s.afterTake p).outs = s.outs ++ if p.take then [.taken s.q.head?] else [] := by
  unfold State.afterTake
  split
  · rfl
  · exact (List.append_nil _).symm

theorem State.afterTake_script (hrst : p.rst = false) : (s.afterTake p).script =
    if p.inValid && s.inReady then [.event (.inp p.inData)] else [] := by
  have hscript := congrArg State.script (State.atCycle_of_no_rst (s := s) hrst)
  cases htake : p.take with
  | true =>
    rw [State.afterTake_of_take htake, State.retire_script, State.pop_script, hscript, htake]
    rfl
  | false =>
    rw [State.afterTake_of_no_take htake, hscript, htake]
    rfl

/-! ## A cycle -/

theorem cycle_of_rst (hrst : p.rst = true) : cycle p s = exec .rst (s.atCycle p) := by
  have hscript := congrArg State.script (State.atCycle_of_rst (s := s) hrst)
  exact (settle_of_singleton hscript).trans (step_of_not_isInput not_isInput_rst hscript)

theorem cycle_eq_settle_afterTake (hrst : p.rst = false) : cycle p s = settle (s.afterTake p) := by
  have hscript := congrArg State.script (State.atCycle_of_no_rst (s := s) hrst)
  cases htake : p.take with
  | true =>
    rw [htake] at hscript
    rw [State.afterTake_of_take htake]
    exact settle_of_take hscript
  | false =>
    rw [State.afterTake_of_no_take htake]
    rfl

theorem cycle_of_no_inp (hrst : p.rst = false) (hin : p.inValid = false ∨ s.inReady = false) :
    cycle p s = .next (s.afterTake p) := by
  have hscript := State.afterTake_script (s := s) hrst
  rw [Bool.and_eq_false_iff.mpr hin] at hscript
  rw [cycle_eq_settle_afterTake hrst]
  exact settle_of_nil hscript

theorem cycle_of_inp (hrst : p.rst = false) (hvalid : p.inValid = true) (hready : s.inReady = true) :
    cycle p s = exec (operationOf (.event (.inp p.inData)) s.tag) (s.afterTake p) := by
  obtain ⟨htag, -, hheld⟩ := State.afterTake_frame (s := s) (p := p)
  have hscript := State.afterTake_script (s := s) hrst
  rw [hvalid, hready] at hscript
  rw [cycle_eq_settle_afterTake hrst, settle_of_singleton hscript,
    step_of_not_held (hheld (s.inReady_eq_true_iff.mp hready)) hscript, decodeWord_dispatchWord, htag]

/-! ## The port `ck_err` -/

theorem cycleCkErr_of_rst {t : State} (hrst : p.rst = true) (h : cycle p s = .next t) : cycleCkErr s t = false := by
  rw [cycle_of_rst hrst] at h
  cases h
  exact cycleCkErr_of_append (answers := [.wasReset]) rfl

theorem cycleCkErr_of_no_inp {t : State} (hrst : p.rst = false) (hin : p.inValid = false ∨ s.inReady = false)
    (h : cycle p s = .next t) : cycleCkErr s t = false := by
  rw [cycle_of_no_inp hrst hin] at h
  cases h
  rw [cycleCkErr_of_append State.afterTake_outs]
  cases p.take <;> rfl

theorem cycleCkErr_of_inp {t : State} (hrst : p.rst = false) (hvalid : p.inValid = true) (hready : s.inReady = true)
    (h : cycle p s = .next t) :
    cycleCkErr s t = (decide (s.tag = .awaitChecksumB) && !s.checksumMatches p.inData) := by
  obtain ⟨htag, hmatches, hheld⟩ := State.afterTake_frame (s := s) (p := p)
  rw [cycle_of_inp hrst hvalid hready, ← htag] at h
  have houts := exec_inp_outs (hheld (s.inReady_eq_true_iff.mp hready)) h
  rw [State.afterTake_outs, List.append_assoc, htag, hmatches] at houts
  rw [cycleCkErr_of_append houts]
  cases p.take <;> simp [Output.ckErr]

/-- 10_state R33 (c), R34: the port is 1 exactly in a cycle whose `IN` is a CKB with a comparison that fails. -/
theorem cycleCkErr_eq_true_iff {t : State} (h : cycle p s = .next t) :
    cycleCkErr s t = true ↔ p.rst = false ∧ p.inValid = true ∧ s.inReady = true ∧ s.tag = .awaitChecksumB ∧
      ¬ (s.ck1 = s.accA ∧ p.inData = s.accB) := by
  cases hrst : p.rst with
  | true => simp [cycleCkErr_of_rst hrst h]
  | false =>
    cases hin : (p.inValid && s.inReady) with
    | false =>
      have hno := Bool.and_eq_false_iff.mp hin
      rw [cycleCkErr_of_no_inp hrst hno h]
      rcases hno with hvalid | hready
      · simp [hvalid]
      · simp [hready]
    | true =>
      obtain ⟨hvalid, hready⟩ := Bool.and_eq_true_iff.mp hin
      rw [cycleCkErr_of_inp hrst hvalid hready h, ← s.checksumMatches_iff]
      simp [hvalid, hready]

end

end Sys2Proof.Machine

open Sys2Proof Sys2Proof.Machine

/-- Settles O54: the cycle is RST, or its `IN`, if it has one, in the state after its TAKE, if it has one. -/
theorem clockCycleOrder : Obligations.ClockCycleOrder := by
  intro p s
  refine ⟨fun hrst => ?rst, fun hrst htake hin => ?take, fun hrst htake hvalid hready u hu => ?takeThenInp,
    fun hrst htake hvalid hready => ?inp, fun hrst htake hin => ?idle, fun t => cycleCkErr_eq_true_iff⟩
  case rst =>
    have hcycle := cycle_of_rst (s := s) hrst
    refine ⟨_, hcycle, rfl, rfl, ?_, rfl, cycleCkErr_of_rst hrst hcycle⟩
    exact congrArg (fun u => u.script.tail) (State.atCycle_of_rst hrst)
  case take =>
    have hcycle := cycle_of_no_inp hrst hin
    rw [State.afterTake_of_take htake] at hcycle
    exact ⟨_, hcycle, rfl, rfl, rfl⟩
  case takeThenInp =>
    have hstart := State.atCycle_of_no_rst (s := s) hrst
    rw [htake, hvalid, hready] at hstart
    rw [cycle_of_inp hrst hvalid hready, State.afterTake_of_take htake, hstart, exec_take_next hu]
    rfl
  case inp =>
    rw [cycle_of_inp hrst hvalid hready, State.afterTake_of_no_take htake, State.atCycle_of_no_rst hrst, htake,
      hvalid, hready]
    rfl
  case idle =>
    rw [cycle_of_no_inp hrst hin, State.afterTake_of_no_take htake, State.atCycle_of_no_rst hrst, htake,
      Bool.and_eq_false_iff.mpr hin]
    rfl

end
